-- ==== Sys2Proof/Word.lean ====
section
/-! DEFINITION. The widths of the block: the 32-bit word of the bus and of a coefficient, the byte
of one bus lane, the 16-bit byte offset, the number of a slot. -/

namespace Sys2Proof

/-- One bus word, one command word, or the bit pattern of one coefficient (20_memory.md R53). -/
abbrev Word := BitVec 32

/-- One byte lane of a bus word (20_memory.md R55). -/
abbrev Byte := BitVec 8

/-- A byte offset from the block's base (20_memory.md R50). -/
abbrev Addr := BitVec 16

/-- The number of one of the 32 polynomial slots (10_state.md R21). -/
abbrev Slot := Fin 32

end Sys2Proof
end

