-- ==== Sys2Proof/Config.lean ====
section
/-! DEFINITION. The parameters of 00_scope.md R5: the fixed ones as numbers, the open ones as
constants without a body, so that no proof can see their value. No rule reads an open one. -/

namespace Sys2Proof.Config

/-- Coefficients per polynomial (R5). -/
abbrev N : Nat := 256

/-- The modulus (R5). -/
abbrev Q : Int := 8380417

/-- The shift amount of shiftl (R5). -/
abbrev D : Nat := 13

/-- Polynomial slots in the register file (R5, R21). -/
abbrev NSLOT : Nat := 32

/-- Largest vector count of one command (R5, R84). -/
abbrev VCNT_MAX : Nat := 8

/-- The latency of a command less one: open, a function of the command word only (R5, R128, R200). -/
opaque latPred : Word → Nat

/-- `LAT(w)`, the cycles from acceptance to completion, at least 1 (R200). The model keeps no time
and nothing reads this: completion is a step enabled from acceptance on. -/
def LAT (w : Word) : Nat := latPred w + 1

/-- What offset `x` of the window holds after the `e`-th reset as long as nothing writes it: any value
(10_state.md R24, 92_eei_decisions.md D29; log 2, 21). A free value: no body, so no proof can see it. -/
opaque unwrittenByte (e x : Nat) : Byte

/-- `BASE`, the platform's address of offset 0 (20_memory.md R51). Open; the model's transactions
carry offsets. -/
opaque BASE : Nat

/-- `BUS_PROTOCOL`, the name of the physical bus (R5, R201). Open. -/
opaque BUS_PROTOCOL : String

/-- The two questions that `RESET_STYLE` answers (70_reset_and_hazards.md R190). -/
structure ResetStyle where
  activeLow : Bool
  synchronous : Bool
  deriving DecidableEq, Repr, Inhabited

/-- `RESET_STYLE`, the polarity and synchrony of the reset input (R190). Open. -/
opaque RESET_STYLE : ResetStyle

end Sys2Proof.Config
end

