-- ==== Sys2Proof/Syntax.lean ====
section
/-! DEFINITION. The commands of the block, one constructor for each row of the opcode table. -/

namespace Sys2Proof

/-- A command with its operands: destination base slot `d`, first source base slot `a`, second
source base slot `b` (binary commands only) and vector count `n`, the number of consecutive slots
it acts on (30_encoding.md R81 to R84, R91). -/
inductive Instr where
  /-- `add pD, pA, pB, #n` (40_poly_arith.md R118). -/
  | add (d a b : Slot) (n : Nat)
  /-- `sub pD, pA, pB, #n` (R119). -/
  | sub (d a b : Slot) (n : Nat)
  /-- `reduce pD, pA, #n` (R120). -/
  | reduce (d a : Slot) (n : Nat)
  /-- `caddq pD, pA, #n` (R121). -/
  | caddq (d a : Slot) (n : Nat)
  /-- `shiftl pD, pA, #n` (R122). -/
  | shiftl (d a : Slot) (n : Nat)
  deriving DecidableEq, Repr

end Sys2Proof
end

