-- ==== Sys2Proof/WellFormed.lean ====
section
/-! DEFINITION. Which commands the assembler emits and the block accepts: the count, the slot
ranges and the overlap condition (30_encoding.md R84, R86, R88, R91). -/

namespace Sys2Proof

/-- Destination base slot (R81). -/
def Instr.dst : Instr → Slot
  | .add d _ _ _ | .sub d _ _ _ | .reduce d _ _ | .caddq d _ _ | .shiftl d _ _ => d

/-- First source base slot (R81). -/
def Instr.srcA : Instr → Slot
  | .add _ a _ _ | .sub _ a _ _ | .reduce _ a _ | .caddq _ a _ | .shiftl _ a _ => a

/-- Second source base slot, of a binary command only (R81). -/
def Instr.srcB : Instr → Option Slot
  | .add _ _ b _ | .sub _ _ b _ => some b
  | .reduce .. | .caddq .. | .shiftl .. => none

/-- Vector count (R84). -/
def Instr.count : Instr → Nat
  | .add _ _ _ n | .sub _ _ _ n | .reduce _ _ n | .caddq _ _ n | .shiftl _ _ n => n

/-- The base slots of the sources the command reads. -/
def Instr.sources (i : Instr) : List Slot := i.srcA :: i.srcB.toList

/-- The count lies in 1..8 (R84). -/
def Instr.countOk (i : Instr) : Bool := 1 ≤ i.count && i.count ≤ Config.VCNT_MAX

/-- No operand range passes slot 31 (R86). -/
def Instr.rangeOk (i : Instr) : Bool :=
  (i.dst :: i.sources).all fun s => s.val + i.count ≤ Config.NSLOT

/-- Every source range equals the destination range or is disjoint from it (R88). -/
def Instr.overlapOk (i : Instr) : Bool :=
  i.sources.all fun s =>
    s == i.dst || s.val + i.count ≤ i.dst.val || i.dst.val + i.count ≤ s.val

/-- A well-formed command: one the assembler emits (R91) and an idle block accepts (R89). -/
def Instr.wf (i : Instr) : Bool := i.countOk && i.rangeOk && i.overlapOk

end Sys2Proof
end

