-- ==== Sys2Proof/Decode.lean ====
section
/-! DEFINITION. Decoding a command word (30_encoding.md R80 to R89, the order of tests of
60_exceptions.md R164), total on all 2^32 words, and encoding a command (R90). -/

namespace Sys2Proof

/-- The command errors of 60_exceptions.md R161. -/
inductive CmdError where
  /-- CMD written while a command is in flight; raised by the issue of any word, not by decoding. -/
  | cmdBusy
  /-- OP is none of 1..5 (R87). -/
  | badOpcode
  /-- A reserved bit is set, or SRCB is not 0 in a unary command (R85). -/
  | rsvdNonzero
  /-- An operand range passes slot 31 (R86). -/
  | slotRange
  /-- A source range partly overlaps the destination range (R88). -/
  | overlap
  deriving DecidableEq, Repr

/-- The code held in STATUS.ERRCODE (60_exceptions.md R161). -/
def CmdError.code : CmdError → BitVec 4
  | .cmdBusy => 1
  | .badOpcode => 2
  | .rsvdNonzero => 3
  | .slotRange => 4
  | .overlap => 5

/-- `bits[hi:lo]` of a word (00_scope.md R9). -/
def bits (w : Word) (hi lo : Nat) : Nat := w.toNat / 2 ^ lo % 2 ^ (hi + 1 - lo)

/-- A 5-bit slot field whose low bit is `lo` (30_encoding.md R83). -/
def slotField (w : Word) (lo : Nat) : Slot := ⟨w.toNat / 2 ^ lo % 32, Nat.mod_lt _ (by decide)⟩

/-- The vector count of a word, VCM1 + 1 (R84). -/
def countField (w : Word) : Nat := bits w 31 29 + 1

/-- The command the OP field names, with its operand fields (R81, R82); `none` where OP is 0 or
6..15 (R87). -/
def instrOf (w : Word) : Option Instr :=
  let d := slotField w 8
  let a := slotField w 16
  let b := slotField w 24
  let n := countField w
  match bits w 3 0 with
  | 1 => some (.add d a b n)
  | 2 => some (.sub d a b n)
  | 3 => some (.reduce d a n)
  | 4 => some (.caddq d a n)
  | 5 => some (.shiftl d a n)
  | _ => none

/-- OP names one of the two binary commands (R82). -/
def isBinaryOp (w : Word) : Bool := bits w 3 0 == 1 || bits w 3 0 == 2

/-- The reserved bits are 0, and so is SRCB in a unary command (R85). -/
def reservedOk (w : Word) : Bool :=
  bits w 7 4 == 0 && bits w 15 13 == 0 && bits w 23 21 == 0
    && (isBinaryOp w || bits w 28 24 == 0)

/-- A range of `n` slots from `s` does not pass slot 31 (R86). -/
def rangeFits (s : Slot) (n : Nat) : Bool := s.val + n - 1 ≤ 31

/-- Every operand range the command uses fits (R86). -/
def slotRangeOk (w : Word) : Bool :=
  rangeFits (slotField w 8) (countField w) && rangeFits (slotField w 16) (countField w)
    && (!isBinaryOp w || rangeFits (slotField w 24) (countField w))

/-- The ranges of `n` slots from `s` and from `d` are equal or disjoint (R88). -/
def sameOrDisjoint (s d : Slot) (n : Nat) : Bool :=
  s == d || s.val + n ≤ d.val || d.val + n ≤ s.val

/-- No source range the command uses partly overlaps its destination range (R88). -/
def noPartialOverlap (w : Word) : Bool :=
  sameOrDisjoint (slotField w 16) (slotField w 8) (countField w)
    && (!isBinaryOp w || sameOrDisjoint (slotField w 24) (slotField w 8) (countField w))

/-- Decoding, with the tests in the order of 60_exceptions.md R164 after the test for a command in
flight: opcode, reserved bits, slot range, overlap. -/
def decode (w : Word) : Except CmdError Instr :=
  match instrOf w with
  | none => .error .badOpcode
  | some i =>
    if !reservedOk w then .error .rsvdNonzero
    else if !slotRangeOk w then .error .slotRange
    else if !noPartialOverlap w then .error .overlap
    else .ok i

/-- The OP value of a command (R82). -/
def Instr.op : Instr → Nat
  | .add .. => 1
  | .sub .. => 2
  | .reduce .. => 3
  | .caddq .. => 4
  | .shiftl .. => 5

/-- The value of the SRCB field: the second source of a binary command, 0 in a unary one (R85). -/
def Instr.srcBField (i : Instr) : Nat :=
  match i.srcB with
  | some b => b.val
  | none => 0

/-- The word of a command (R90). The fields do not overlap, so R90's `|` is a sum (log 16). -/
def encode (i : Instr) : Word :=
  BitVec.ofNat 32
    ((i.count - 1) * 2 ^ 29 + i.srcBField * 2 ^ 24 + i.srcA.val * 2 ^ 16 + i.dst.val * 2 ^ 8 + i.op)

/-- The word of a command, refused where its count lies outside 1..8 or it breaks R86 or R88 (R91). -/
def assemble (i : Instr) : Option Word := if i.wf then some (encode i) else none

/-- An operand as it is written in a line of assembly: `p<k>` or `#n` (R91). -/
inductive AsmOperand where
  | slot (k : Nat)
  | count (n : Nat)
  deriving DecidableEq, Repr

/-- A slot operand; an operand outside its field is refused (R91). -/
def asmSlot (k : Nat) : Option Slot := if h : k < 32 then some ⟨k, h⟩ else none

/-- The slot operands of a line and its count, which is the last operand and defaults to 1 (R91). -/
def asmOperands : List AsmOperand → Option (List Slot × Nat)
  | [] => some ([], 1)
  | [.count n] => some ([], n)
  | .count _ :: _ => none
  | .slot k :: rest =>
    match asmSlot k, asmOperands rest with
    | some s, some (ss, n) => some (s :: ss, n)
    | _, _ => none

/-- The command a line of assembly names: a lower-case mnemonic and its operands (R91). -/
def asmInstr (mnemonic : String) (operands : List AsmOperand) : Option Instr :=
  match asmOperands operands with
  | some ([d, a, b], n) =>
    if mnemonic = "add" then some (.add d a b n)
    else if mnemonic = "sub" then some (.sub d a b n)
    else none
  | some ([d, a], n) =>
    if mnemonic = "reduce" then some (.reduce d a n)
    else if mnemonic = "caddq" then some (.caddq d a n)
    else if mnemonic = "shiftl" then some (.shiftl d a n)
    else none
  | _ => none

/-- The assembler (R91): the word of a line, or a refusal. -/
def assembleLine (mnemonic : String) (operands : List AsmOperand) : Option Word :=
  match asmInstr mnemonic operands with
  | some i => assemble i
  | none => none

/-- What `decode` reads from an instruction of `nbits` bits whose bits are `w`, the bits above
`nbits` being 0. Every command is one 32-bit word (R80), so more than 32 bits are no command. -/
def decodeTableWord (nbits w : Nat) : Option Instr :=
  if nbits ≤ 32 then
    match decode (BitVec.ofNat 32 (w % 2 ^ nbits)) with
    | .ok i => some i
    | .error _ => none
  else none

end Sys2Proof
end

