-- ==== Sys2Proof/Machine/State.lean ====
section
/-! DEFINITION. The state of the block (10_state.md R38) with the model's own record of the coming
host transactions and turns, the reasons a step can stop, and the state after reset. -/

namespace Sys2Proof.Machine

/-- Why the machine stops with a fault. -/
inductive Fault where
  /-- Raised by a host transaction that is misaligned, not a full word with all four lanes, or at an
  unmapped offset (20_memory.md R53, R54; U4). Safe: the block has changed nothing, and
  `stepThroughBusErrors` of Safety.lean is the run that goes on after it. -/
  | busError (a : Addr)
  deriving DecidableEq, Repr

/-- Why the machine has no meaning for a step. -/
inductive Refusal where
  /-- Raised by an arm of `exec` whose instruction has no meaning yet. Safe. -/
  | notModelled (mnemonic : String)
  /-- Raised by the engine's turn when INFL holds a word that is no valid command. No rule reaches
  such a state (60_exceptions.md R164, R165) and the invariant `Inv` excludes it (log 7). Safe. -/
  | invalidInFlight (w : Word)
  deriving DecidableEq, Repr

/-- The coefficient store as bytes at the block's own offsets 0x8000..0xFFFF (20_memory.md R52,
R55): addresses strictly rising; an address that is not listed has not been written since reset
(10_state.md R24; log 1). -/
abbrev Memory := List Host.Cell

/-- The fields of the STATUS register that are stored; its bits 31:8 read as 0 (10_state.md R29). -/
structure Status where
  /-- A command is in flight (R31). -/
  busy : Bool
  /-- The last command issued finished or was rejected (R32). -/
  done : Bool
  /-- A command error occurred since the last clear (R33). -/
  err : Bool
  /-- An add, sub or shiftl result did not fit since the last clear (R34). -/
  ovf : Bool
  /-- Code of the first command error since the last clear (R33). -/
  errcode : BitVec 4
  deriving DecidableEq, Repr

/-- What a host transaction does (20_memory.md R56, R57). -/
inductive TxnOp where
  | read
  | write (w : Word)
  deriving DecidableEq, Repr

/-- One host transaction as it reaches the block: its byte offset, its width in bytes and its
byte-lane mask (20_memory.md R53). -/
structure Txn where
  op : TxnOp
  addr : Addr
  width : Nat
  lanes : BitVec 4
  deriving DecidableEq, Repr

/-- One item of what the host will do: a transaction, or the loop `wait` of 30_encoding.md R92,
which reads STATUS until BUSY is 0. -/
inductive HostOp where
  | txn (t : Txn)
  | wait
  deriving DecidableEq, Repr

/-- What the host sees of a transaction: the word of a read, an OKAY, or an error response. -/
inductive Response where
  | data (w : Word)
  | okay
  | error (a : Addr)
  deriving DecidableEq, Repr

/-- Who takes a step (10_state.md R20, 60_exceptions.md R167). -/
inductive Agent where
  | host
  | engine
  | reset
  deriving DecidableEq, Repr

/-- The state. The first five fields are the architectural state of 10_state.md R38; `host`, `sched`,
`resp` and `epoch` are the model's own (log 2 to 4). -/
structure State where
  /-- The polynomial register file (R21), byte by byte. -/
  P : Memory
  /-- The word of the command in flight (R25). -/
  infl : Option Word
  /-- STATUS (R29). -/
  status : Status
  /-- CTRL.IE (R35). -/
  ie : Bool
  /-- ERRINFO (R37). -/
  errinfo : Word
  /-- The host's coming transactions in the order it issues them (20_memory.md R61). -/
  host : List HostOp
  /-- Whose turn the coming steps are; see `step`. -/
  sched : List Agent
  /-- The response to the host's last transaction. -/
  resp : Option Response
  /-- How many resets there have been: which free contents the unwritten coefficients have (log 2). -/
  epoch : Nat
  deriving DecidableEq, Repr

/-- STATUS after reset (R38). -/
def Status.reset : Status :=
  { busy := false, done := false, err := false, ovf := false, errcode := 0 }

/-- The block after reset (R38, 70_reset_and_hazards.md R190): no coefficient has been written, no command
is in flight, STATUS, CTRL and ERRINFO are 0. No host transaction is pending and no turn is laid down
(log 2 to 4). -/
def State.reset : State :=
  { P := [], infl := none, status := Status.reset, ie := false, errinfo := 0, host := [],
    sched := [], resp := none, epoch := 0 }

end Sys2Proof.Machine
end

