-- ==== Sys2Proof/Machine/Ops.lean ====
section
/-! DEFINITION. The shared operations: bytes and words of the coefficient store, the command error,
its clearing, acceptance, completion and reset. -/

namespace Sys2Proof.Machine

/-! ## Bytes and words -/

/-- Byte lane `k` of a word, its bits [8k+7:8k] (20_memory.md R55). -/
def laneByte (w : Word) (k : Nat) : Byte := BitVec.ofNat 8 (w.toNat / 2 ^ (8 * k))

/-- The word whose byte lanes 0..3 are `b0` to `b3` (R55). -/
def wordOfLanes (b0 b1 b2 b3 : Byte) : Word :=
  BitVec.ofNat 32 (b0.toNat + b1.toNat * 2 ^ 8 + b2.toNat * 2 ^ 16 + b3.toNat * 2 ^ 24)

/-- The byte written at an address; `none` where nothing has written it (10_state.md R24; log 1). -/
def Memory.byte? : Memory → Nat → Option Byte
  | [], _ => none
  | (k, b) :: m, a => if k = a then some b else Memory.byte? m a

/-- The word written at an address, least significant byte lowest (20_memory.md R55). -/
def Memory.word? (m : Memory) (a : Nat) : Option Word :=
  match m.byte? a, m.byte? (a + 1), m.byte? (a + 2), m.byte? (a + 3) with
  | some b0, some b1, some b2, some b3 => some (wordOfLanes b0 b1 b2 b3)
  | _, _, _, _ => none

/-- The byte an address reads as, `f` giving what the unwritten ones hold. -/
def Memory.byteOr (f : Nat → Byte) (m : Memory) (a : Nat) : Byte := (m.byte? a).getD (f a)

/-- The word an address reads as (R55). -/
def Memory.wordOr (f : Nat → Byte) (m : Memory) (a : Nat) : Word :=
  wordOfLanes (m.byteOr f a) (m.byteOr f (a + 1)) (m.byteOr f (a + 2)) (m.byteOr f (a + 3))

/-- The cells of consecutive words from address `a` on, least significant byte lowest (R55). -/
def wordCells (a : Nat) : List Word → Memory
  | [] => []
  | w :: ws =>
    (a, laneByte w 0) :: (a + 1, laneByte w 1) :: (a + 2, laneByte w 2) :: (a + 3, laneByte w 3)
      :: wordCells (a + 4) ws

/-- The store with consecutive words written from address `a` on. -/
def Memory.storeWords (m : Memory) (a : Nat) (ws : List Word) : Memory :=
  m.filter (fun c => c.1 < a) ++ wordCells a ws
    ++ m.filter (fun c => a + 4 * ws.length ≤ c.1)

/-- `k` consecutive words from address `a` on. What is dropped lies below the address read, so the
result does not depend on the dropping; on a canonical store it leaves the word to read in front. -/
def Memory.loadWords (f : Nat → Byte) (m : Memory) (a : Nat) : Nat → List Word
  | 0 => []
  | k + 1 =>
    let rest : Memory := m.dropWhile (fun c => c.1 < a)
    rest.wordOr f a :: Memory.loadWords f rest (a + 4) k

/-- The canonical form: addresses strictly rising. An unlisted address is an unwritten one, which no
entry stands for; what it reads as is a free value, with which no entry can be compared (log 1). -/
def Memory.wf : Memory → Bool
  | [] => true
  | [_] => true
  | (a, _) :: (b, y) :: m => a < b && Memory.wf ((b, y) :: m)

/-! ## Outcomes -/

/-- Apply `f` to the next state of an outcome. -/
def mapNext (f : State → State) :
    Host.Outcome State Fault Refusal → Host.Outcome State Fault Refusal
  | .next s => .next (f s)
  | .fault e => .fault e
  | .refused r => .refused r

/-! ## Command errors and their clearing -/

/-- `raise CmdError(code, w)` (60_exceptions.md R163): the first error since the last clear is kept,
and a rejection other than CMD_BUSY counts as finished. -/
def raiseCmdError (e : CmdError) (w : Word) (s : State) : State :=
  let kept : State :=
    if s.status.err then s
    else { s with status := { s.status with err := true, errcode := e.code }, errinfo := w }
  if e = .cmdBusy then kept
  else { kept with status := { kept.status with done := true } }

/-- What CTRL.CLR clears (10_state.md R35). -/
def clearErrors (s : State) : State :=
  { s with
    status := { s.status with done := false, err := false, errcode := 0, ovf := false }
    errinfo := 0 }

/-- A write of `v` to CTRL (10_state.md R35): IE first, then CLR. It is the block's "return" from a
handled event (60_exceptions.md R171). -/
def ctrlWrite (v : Word) (s : State) : State :=
  let s1 := { s with ie := bits v 0 0 == 1 }
  if bits v 1 1 == 1 then clearErrors s1 else s1

/-! ## Acceptance, completion, reset -/

/-- `Accept(w)` (60_exceptions.md R165). -/
def accept (w : Word) (s : State) : State :=
  { s with infl := some w, status := { s.status with busy := true, done := false } }

/-- `IssueCommand(w)`, the effect of a CMD write, with the tests in their fixed order (R164). -/
def issueCommand (w : Word) (s : State) : State :=
  if s.infl.isSome then raiseCmdError .cmdBusy w s
  else
    match decode w with
    | .error e => raiseCmdError e w s
    | .ok _ => accept w s

/-- The end of a completion: what `Complete()` of R166 does after `ExecCmd`. -/
def retire (s : State) : State :=
  { s with infl := none, status := { s.status with busy := false, done := true } }

/-- `Reset()` (70_reset_and_hazards.md R190). The unwritten coefficients have new free contents, since
nothing of `P` is known to survive (R191; log 2, 21). What the host has yet to do, the coming turns and the
last response stand outside the block and stay (R59 of 20_memory.md; log 14). -/
def resetBlock (s : State) : State :=
  { s with
    P := [], infl := none, status := Status.reset, ie := false, errinfo := 0, epoch := s.epoch + 1 }

/-! ## The host's side -/

/-- The response to the transaction just performed. -/
def respond (r : Response) (s : State) : State := { s with resp := some r }

/-- One turn used up. -/
def popSched (s : State) : State := { s with sched := s.sched.tail }

/-- One item of the host's list used up. -/
def popHost (s : State) : State := { s with host := s.host.tail }

end Sys2Proof.Machine
end

