-- ==== Sys2Proof/Machine/Operands.lean ====
section
/-! DEFINITION. Operands: the address of a coefficient in the window and the vectors of coefficients
a command reads and writes. -/

namespace Sys2Proof.Machine

/-- The offset of `P[s][i]` (20_memory.md R52). -/
def coeffAddr (s i : Nat) : Nat := 0x8000 + 0x400 * s + 4 * i

/-- The offset of the first coefficient of a slot. -/
def slotAddr (s : Slot) : Nat := coeffAddr s.val 0

/-- Number of coefficients in `n` slots. -/
def vecLen (n : Nat) : Nat := Config.N * n

/-- What the unwritten coefficients hold: free contents, others after each reset (log 2). That they depend
on the number of resets and the offset alone, and not on what `P` held before the reset, is the model's
choice (log 21). -/
def State.contents (σ : State) : Nat → Byte := Config.unwrittenByte σ.epoch

/-- `P[s][i]` as the integer it holds: what was written last (20_memory.md R61), and a free value where
nothing has been written since reset (92_eei_decisions.md D29; log 2). -/
def State.coeff (σ : State) (s i : Nat) : Int :=
  (σ.P.wordOr σ.contents (coeffAddr s i)).toInt

/-- `P[s][i]` has been written since reset: it holds a value in the sense of 10_state.md R24. -/
def State.written (σ : State) (s i : Nat) : Bool := (σ.P.word? (coeffAddr s i)).isSome

/-- The snapshot of a source operand: the coefficients of `n` slots from `s` on, in the order of
slot and index (40_poly_arith.md R117). -/
def readVec (s : Slot) (n : Nat) (σ : State) : List Int :=
  (σ.P.loadWords σ.contents (slotAddr s) (vecLen n)).map BitVec.toInt

/-- The write of a destination operand from its first slot on, each value as its two's-complement
pattern (00_scope.md R8, 40_poly_arith.md R117). -/
def writeVec (d : Slot) (vs : List Int) (σ : State) : State :=
  { σ with P := σ.P.storeWords (slotAddr d) (vs.map (BitVec.ofInt 32)) }

/-- A host write of word `w` to `P[s][i]` (20_memory.md R52). -/
def writeCoeff (s i : Nat) (w : Word) (σ : State) : State :=
  { σ with P := σ.P.storeWords (coeffAddr s i) [w] }

end Sys2Proof.Machine
end

