-- ==== Sys2Proof/Machine/Flags.lean ====
section
/-! DEFINITION. The scalar primitives with their overflow indication (40_poly_arith.md section 1),
the words STATUS and CTRL read as, and the interrupt output. -/

namespace Sys2Proof.Machine

/-- `fits32` (00_scope.md R9). -/
def fits32 (x : Int) : Bool := -2 ^ 31 ≤ x && x ≤ 2 ^ 31 - 1

/-- `wrap32` (R9); `%` of Int with a positive modulus lies in [0, 2^32). -/
def wrap32 (x : Int) : Int := (x + 2 ^ 31) % 2 ^ 32 - 2 ^ 31

/-- A value with its overflow indication. -/
def wrapped (x : Int) : Int × Bool := (wrap32 x, !fits32 x)

/-- `add32` (40_poly_arith.md R115). -/
def add32 (x y : Int) : Int × Bool := wrapped (x + y)

/-- `sub32` (R115). -/
def sub32 (x y : Int) : Int × Bool := wrapped (x - y)

/-- `shl13` (R115): multiplication by 2^D. -/
def shl13 (x : Int) : Int × Bool := wrapped (x * 2 ^ Config.D)

/-- `reduce32`, the central reduce on exact integers (R110); `/` of Int by a positive divisor is the
floor division of 00_scope.md R8. -/
def reduce32 (a : Int) : Int := a - (a + 2 ^ 22) / 2 ^ 23 * Config.Q

/-- `caddq` (R113). -/
def caddq (a : Int) : Int := if a < 0 then a + Config.Q else a

/-- A primitive that never indicates an overflow (R117). -/
def noOvf (f : Int → Int) (a : Int) : Int × Bool := (f a, false)

/-- Set the sticky OVF if the indication is set (R117). -/
def flagOvf (o : Bool) (s : State) : State :=
  if o then { s with status := { s.status with ovf := true } } else s

/-- The word a read of STATUS returns: ERRCODE in bits 7:4, OVF, ERR, DONE, BUSY in bits 3 to 0
(10_state.md R29, 20_memory.md R56). -/
def Status.word (t : Status) : Word :=
  BitVec.ofNat 32
    (t.errcode.toNat * 2 ^ 4 + t.ovf.toNat * 2 ^ 3 + t.err.toNat * 2 ^ 2 + t.done.toNat * 2
      + t.busy.toNat)

/-- The word a read of CTRL returns (10_state.md R35). -/
def State.ctrlWord (s : State) : Word := BitVec.ofNat 32 s.ie.toNat

/-- CONSTQ (10_state.md R27). -/
def constqWord : Word := 0x007FE001

/-- INFO (10_state.md R28): D in bits 31:24, NSLOT in 23:16, N in 15:0. -/
def infoWord : Word := 0x0D200100

/-- The interrupt output (60_exceptions.md R168). -/
def State.irq (s : State) : Bool := s.ie && (s.status.done || s.status.err)

end Sys2Proof.Machine
end

