-- ==== Sys2Proof/Machine/Bus.lean ====
section
/-! DEFINITION. Host transactions (20_memory.md sections 1 to 3): the address map, reads, writes and
the hold of window transactions while a command is in flight. -/

namespace Sys2Proof.Machine

/-- Where an offset of the address map leads (20_memory.md R51). -/
inductive Region where
  | constq
  | status
  | ctrl
  | cmd
  | errinfo
  | info
  | window (s i : Nat)
  | unmapped
  deriving DecidableEq, Repr

/-- The address map (R51) for a word-aligned offset, with the slot and the index a window offset
names: its bits [14:10] and [9:2] (R52). -/
def region (a : Addr) : Region :=
  if a = 0x0000 then .constq
  else if a = 0x0004 then .status
  else if a = 0x0008 then .ctrl
  else if a = 0x000C then .cmd
  else if a = 0x0010 then .errinfo
  else if a = 0x0014 then .info
  else if 0x8000 ≤ a.toNat then
    .window (a.toNat / 2 ^ 10 % 2 ^ 5) (a.toNat / 2 ^ 2 % 2 ^ 8)
  else .unmapped

/-- The transaction is one the block supports: a 32-bit access to a word-aligned offset with all
four byte lanes enabled (R53). -/
def Txn.ok (t : Txn) : Bool := t.addr.toNat % 4 == 0 && t.width == 4 && t.lanes == 0xF

/-- The offset lies in the coefficient window. -/
def Txn.inWindow (t : Txn) : Bool := 0x8000 ≤ t.addr.toNat

/-- The transaction is held: a window transaction while a command is in flight (R59). -/
def held (t : Txn) (s : State) : Bool := s.infl.isSome && t.ok && t.inWindow

/-- `MemRead` of a full word at an aligned offset (R56). An unwritten coefficient reads as its
free value, the same at every read until it is written or a reset comes (log 2, 12). -/
def memRead (a : Addr) (s : State) : Host.Outcome State Fault Refusal :=
  match region a with
  | .constq => .next (respond (.data constqWord) s)
  | .status => .next (respond (.data s.status.word) s)
  | .ctrl => .next (respond (.data s.ctrlWord) s)
  | .cmd => .next (respond (.data 0) s)
  | .errinfo => .next (respond (.data s.errinfo) s)
  | .info => .next (respond (.data infoWord) s)
  | .window sl i => .next (respond (.data (s.P.wordOr s.contents (coeffAddr sl i))) s)
  | .unmapped => .fault (.busError a)

/-- `MemWrite` of a full word at an aligned offset (R57). -/
def memWrite (a : Addr) (w : Word) (s : State) : Host.Outcome State Fault Refusal :=
  match region a with
  | .constq | .status | .errinfo | .info => .next (respond .okay s)
  | .ctrl => .next (respond .okay (ctrlWrite w s))
  | .cmd => .next (respond .okay (issueCommand w s))
  | .window sl i => .next (respond .okay (writeCoeff sl i w s))
  | .unmapped => .fault (.busError a)

/-- One transaction that is not held. -/
def perform (t : Txn) (s : State) : Host.Outcome State Fault Refusal :=
  if t.ok then
    match t.op with
    | .read => memRead t.addr s
    | .write w => memWrite t.addr w s
  else .fault (.busError t.addr)

/-- The block after a bus error (R54, 60_exceptions.md R160, R162): nothing of it has changed, the
turn and the transaction are used up, and the host has the error response (log 5). -/
def State.afterBusError (a : Addr) (s : State) : State :=
  respond (.error a) (popHost (popSched s))

end Sys2Proof.Machine
end

