-- ==== Sys2Proof/Machine/Frame.lean ====
section
/-! DEFINITION. The command frame `ExecCmd` (40_poly_arith.md R117) for one and for two source
operands: read every source, compute every coefficient, write the destination, flag an overflow. -/

namespace Sys2Proof.Machine

/-- The part of the frame after the snapshot: the results are written and OVF is set if any result
overflowed. -/
def commitVec (d : Slot) (rs : List (Int × Bool)) (s : State) : State :=
  flagOvf (rs.any Prod.snd) (writeVec d (rs.map Prod.fst) s)

/-- `ExecCmd` of a unary command. It cannot fail (60_exceptions.md R166). -/
def execUnary (f : Int → Int × Bool) (d a : Slot) (n : Nat) (s : State) :
    Host.Outcome State Fault Refusal :=
  .next (commitVec d ((readVec a n s).map f) s)

/-- `ExecCmd` of a binary command. It cannot fail (R166). -/
def execBinary (f : Int → Int → Int × Bool) (d a b : Slot) (n : Nat) (s : State) :
    Host.Outcome State Fault Refusal :=
  .next (commitVec d (List.zipWith f (readVec a n s) (readVec b n s)) s)

end Sys2Proof.Machine
end

