-- ==== Sys2Proof/Machine/Binary.lean ====
section
/-! DEFINITION. The meanings of the binary commands: add and sub. -/

namespace Sys2Proof.Machine

/-- `add pD, pA, pB, #n` (40_poly_arith.md R118). -/
def execAdd (d a b : Slot) (n : Nat) (s : State) : Host.Outcome State Fault Refusal :=
  execBinary add32 d a b n s

/-- `sub pD, pA, pB, #n`, A minus B (R119). -/
def execSub (d a b : Slot) (n : Nat) (s : State) : Host.Outcome State Fault Refusal :=
  execBinary sub32 d a b n s

end Sys2Proof.Machine
end

