-- ==== Sys2Proof/Machine/Unary.lean ====
section
/-! DEFINITION. The meanings of the unary commands: reduce, caddq and shiftl. -/

namespace Sys2Proof.Machine

/-- `reduce pD, pA, #n` (40_poly_arith.md R120). -/
def execReduce (d a : Slot) (n : Nat) (s : State) : Host.Outcome State Fault Refusal :=
  execUnary (noOvf reduce32) d a n s

/-- `caddq pD, pA, #n` (R121). -/
def execCaddq (d a : Slot) (n : Nat) (s : State) : Host.Outcome State Fault Refusal :=
  execUnary (noOvf caddq) d a n s

/-- `shiftl pD, pA, #n` (R122). -/
def execShiftl (d a : Slot) (n : Nat) (s : State) : Host.Outcome State Fault Refusal :=
  execUnary shl13 d a n s

end Sys2Proof.Machine
end

