-- ==== Sys2Proof/Machine/Dispatch.lean ====
section
/-! DEFINITION. The meaning of every command: `ExecCmd` of 40_poly_arith.md R117. -/

namespace Sys2Proof.Machine

def exec (i : Instr) (s : State) : Host.Outcome State Fault Refusal :=
  match i with
  | .add d a b n => Sys2Proof.Machine.execAdd d a b n s
  | .sub d a b n => Sys2Proof.Machine.execSub d a b n s
  | .reduce d a n => Sys2Proof.Machine.execReduce d a n s
  | .caddq d a n => Sys2Proof.Machine.execCaddq d a n s
  | .shiftl d a n => Sys2Proof.Machine.execShiftl d a n s

end Sys2Proof.Machine
end

