-- ==== Sys2Proof/Machine/Agents.lean ====
section
/-! DEFINITION. The turns of the two agents and of reset (10_state.md R20). A turn given to an agent
that has no enabled step changes nothing (log 6). -/

namespace Sys2Proof.Machine

/-- The engine's turn: the completion of the command in flight (60_exceptions.md R166), as one
atomic step. -/
def engineTurn (s : State) : Host.Outcome State Fault Refusal :=
  match s.infl with
  | none => .next s
  | some w =>
    match decode w with
    | .error _ => .refused (.invalidInFlight w)
    | .ok i => mapNext retire (exec i s)

/-- One round of the host's loop `wait` (30_encoding.md R92): a read of STATUS, repeated while BUSY
is 1. -/
def waitTurn (s : State) : State :=
  let polled := respond (.data s.status.word) s
  if s.status.busy then polled else popHost polled

/-- The host's turn: its next transaction, unless it is held (20_memory.md R59, R61). -/
def hostTurn (s : State) : Host.Outcome State Fault Refusal :=
  match s.host with
  | [] => .next s
  | .wait :: _ => .next (waitTurn s)
  | .txn t :: _ => if held t s then .next s else perform t (popHost s)

/-- The turn of one agent. -/
def agentTurn (g : Agent) (s : State) : Host.Outcome State Fault Refusal :=
  match g with
  | .host => hostTurn s
  | .engine => engineTurn s
  | .reset => .next (resetBlock s)

/-- The turn when no turn is laid down: a command in flight completes, so that no run waits for ever
(the weak fairness of 60_exceptions.md R166); an idle block serves the host. -/
def restTurn (s : State) : Host.Outcome State Fault Refusal :=
  if s.infl.isSome then engineTurn s else hostTurn s

/-- The state in which the command word `w` is in flight and the engine is next. -/
def placeCommand (w : Word) (s : State) : State :=
  { accept w s with sched := .engine :: s.sched }

/-- A full-word transaction (20_memory.md R53). -/
def fullWord (op : TxnOp) (a : Addr) : Txn := { op := op, addr := a, width := 4, lanes := 0xF }

end Sys2Proof.Machine
end

