-- ==== Sys2Proof/Machine/Step.lean ====
section
/-! DEFINITION. One step of the block, and the placing of a command word where the next step runs
it. -/

namespace Sys2Proof.Machine

/-- One step: the turn that `sched` lays down next (60_exceptions.md R167), or `restTurn` when it
lays down none. -/
def step (s : State) : Host.Outcome State Fault Refusal :=
  match s.sched with
  | [] => restTurn s
  | g :: _ => agentTurn g (popSched s)

/-- `s` with the command word `w` in flight and the engine's turn next, so that the next step runs
it (10_state.md R25, R26; log 8). -/
def State.withFetchWord (s : State) (nbits w : Nat) : State :=
  placeCommand (BitVec.ofNat 32 (w % 2 ^ nbits)) s

end Sys2Proof.Machine
end

