-- ==== Sys2Proof/Machine/HostProgram.lean ====
section
/-! DEFINITION. The host-program notation of 30_encoding.md R92 as items of the host's list, and the
pseudo-instructions of R93. The block itself knows neither. -/

namespace Sys2Proof.Machine

/-- `wr OFF, V` (R92). -/
def wr (a : Addr) (w : Word) : HostOp := .txn (fullWord (.write w) a)

/-- `rd OFF` (R92). -/
def rd (a : Addr) : HostOp := .txn (fullWord .read a)

/-- `cmd <assembly>` (R92): nothing where the assembler refuses (R91). -/
def cmd (i : Instr) : Option HostOp := (assemble i).map (wr 0x000C)

/-- `fill pS, f(i)` (R92): one window write for each index, in increasing order. -/
def fill (s : Slot) (f : Nat → Int) : List HostOp :=
  (List.range Config.N).map fun i =>
    wr (BitVec.ofNat 16 (coeffAddr s.val i)) (BitVec.ofInt 32 (f i))

/-- The pseudo-instructions (R93). -/
inductive Pseudo where
  | zero (d : Slot) (n : Nat)
  | dbl (d a : Slot) (n : Nat)
  | freeze (d a : Slot) (n : Nat)
  | mov (d a : Slot) (n : Nat)
  | neg (d a : Slot) (n : Nat)
  deriving DecidableEq, Repr

/-- The commands of an expansion (R93), a `wait` standing between each two. -/
def Pseudo.commands : Pseudo → List Instr
  | .zero d n => [.sub d d d n]
  | .dbl d a n => [.add d a a n]
  | .freeze d a n => [.reduce d a n, .caddq d d n]
  | .mov d a n => [.sub d d d n, .add d a d n]
  | .neg d a n => [.sub d d d n, .sub d d a n]

/-- The condition of an expansion (R93). Where A = D is excluded it is said here; that the ranges
are equal or disjoint is what the assembler checks of each command (R88, R91). -/
def Pseudo.condition : Pseudo → Bool
  | .zero _ _ | .dbl _ _ _ | .freeze _ _ _ => true
  | .mov d a _ | .neg d a _ => a != d

/-- The host-program lines of a list of commands, or nothing where the assembler refuses one. -/
def commandLines : List Instr → Option (List HostOp)
  | [] => some []
  | [i] => (cmd i).map fun c => [c]
  | i :: is =>
    match cmd i, commandLines is with
    | some c, some cs => some (c :: .wait :: cs)
    | _, _ => none

/-- The expansion of a pseudo-instruction; nothing where its condition fails (R93). -/
def Pseudo.expand (p : Pseudo) : Option (List HostOp) :=
  if p.condition then commandLines p.commands else none

end Sys2Proof.Machine
end

