-- ==== Sys2Proof/Safety.lean ====
section
/-! DEFINITION. What counts as a legal state and as a safe run: the invariant of the rules, the
readiness of a command's sources, the domains of the output bounds, runs that go on after a bus error,
and steps that read no unwritten coefficient. -/

namespace Sys2Proof.Machine

/-! ## Legal states -/

/-- STATUS.BUSY is 1 exactly when a command is in flight (10_state.md R25). -/
abbrev BusyMatches (s : State) : Prop := s.status.busy = s.infl.isSome

/-- The word in flight is a valid command (60_exceptions.md R164, R165). -/
abbrev InFlightValid (s : State) : Prop :=
  ∀ w, s.infl = some w → ∃ i, decode w = .ok i

/-- ERRCODE = 0 exactly when ERR = 0, and BUSY = 1 implies DONE = 0 (10_state.md R30). -/
abbrev StatusLegal (s : State) : Prop :=
  (s.status.errcode = 0 ↔ s.status.err = false) ∧ (s.status.busy = true → s.status.done = false)

/-- ERRCODE is one of the produced codes 0..5 (60_exceptions.md R161; U6). -/
abbrev ErrCodeProduced (s : State) : Prop := s.status.errcode.toNat ≤ 5

/-- ERRINFO is 0 while ERR is 0 (10_state.md R37). -/
abbrev ErrInfoCleared (s : State) : Prop := s.status.err = false → s.errinfo = 0

/-- The store is in its canonical form and lists only offsets of the window, each word of the window
whole or not at all (20_memory.md R52, R53, R60). -/
abbrev StoreLegal (s : State) : Prop :=
  s.P.wf = true ∧
    ∀ c ∈ s.P, 0x8000 ≤ c.1 ∧ c.1 < 0x10000 ∧ (s.P.word? (c.1 / 4 * 4)).isSome = true

/-- A legal state: what the rules reach from reset. -/
structure Inv (s : State) : Prop where
  busy : BusyMatches s
  inFlight : InFlightValid s
  status : StatusLegal s
  errcode : ErrCodeProduced s
  errinfo : ErrInfoCleared s
  store : StoreLegal s

/-! ## Safe runs -/

/-- Every coefficient of the `n` slots from `a` on has been written (70_reset_and_hazards.md R193). -/
abbrev Readable (s : State) (a : Slot) (n : Nat) : Prop :=
  ∀ p, p < n → ∀ k, k < Config.N → s.written (a.val + p) k = true

/-- Every source of the command has been written (R193). -/
abbrev Ready (i : Instr) (s : State) : Prop := ∀ a ∈ i.sources, Readable s a i.count

/-- The domain in which the output bound of section 4.3's table holds for each result of a command
(40_poly_arith.md R125, 70_reset_and_hazards.md R199), for one pair of source coefficients. -/
def InDomain (i : Instr) (x y : Int) : Bool :=
  match i with
  | .add .. => fits32 (x + y)
  | .sub .. => fits32 (x - y)
  | .reduce .. => true
  | .caddq .. => -Config.Q ≤ x && x ≤ Config.Q - 1
  | .shiftl .. => -2 ^ 18 ≤ x && x ≤ 2 ^ 18 - 1

/-- One step of the block when the host goes on after a bus error (60_exceptions.md R160: none of the
abnormal events stops the block; log 5). -/
def stepThroughBusErrors (s : State) : Host.Outcome State Fault Refusal :=
  match step s with
  | .fault (.busError a) => .next (s.afterBusError a)
  | o => o

/-- The machine whose runs go on after a bus error (log 5). -/
def coreThroughBusErrors : Host.Core :=
  { State := State, Fault := Fault, Refusal := Refusal, step := stepThroughBusErrors,
    reset := State.reset }

/-! ## What the next step is about -/

/-- Reset has the next turn. -/
abbrev ResetTurn (s : State) : Prop := s.sched.head? = some .reset

/-- The host has the next turn. -/
abbrev HostTurn (s : State) : Prop :=
  s.sched.head? = some .host ∨ (s.sched = [] ∧ s.infl = none)

/-- The engine has the next turn. -/
abbrev EngineTurn (s : State) : Prop :=
  s.sched.head? = some .engine ∨ (s.sched = [] ∧ s.infl ≠ none)

/-- The next step is the host's, and its item is a supported write of `w` at offset `a`. -/
abbrev WriteNext (a : Addr) (w : Word) (s : State) : Prop :=
  HostTurn s ∧ ∃ t ops, s.host = .txn t :: ops ∧ t.ok = true ∧ t.op = .write w ∧ t.addr = a

/-- The next step is the host's CTRL write with CLR = 1 (10_state.md R35). -/
abbrev ClearNext (s : State) : Prop := ∃ v, WriteNext 0x0008 v s ∧ bits v 1 1 = 1

/-- The command `i` is in flight. -/
abbrev InFlight (i : Instr) (s : State) : Prop := ∃ w, s.infl = some w ∧ decode w = .ok i

/-- The next step reads a coefficient that nothing has written since reset: the completion of a command
with one among its sources, or a window read of one. It is the host's breach of R193, the case in which
U1 of 93_implementation_defined.md lets a model fault. -/
abbrev ReadsUnwritten (s : State) : Prop :=
  (EngineTurn s ∧ ∃ i, InFlight i s ∧ ¬ Ready i s) ∨
  (HostTurn s ∧ s.infl = none ∧ ∃ t ops k i, s.host = .txn t :: ops ∧ t.ok = true ∧ t.op = .read ∧
    region t.addr = .window k i ∧ s.written k i = false)

/-- A step with the treatment of U1: `StrictStep s o` says that the step reads no unwritten coefficient
and has outcome `o`; where it would read one there is no outcome, which is U1's fault. `step` itself
goes on with the free value, as the hardware does (60_exceptions.md R166, 92_eei_decisions.md D29;
log 2). -/
abbrev StrictStep (s : State) (o : Host.Outcome State Fault Refusal) : Prop :=
  ¬ ReadsUnwritten s ∧ step s = o

/-- Every transaction the host has yet to issue is one the block answers without a bus error
(20_memory.md R53, R54). -/
abbrev Benign (ops : List HostOp) : Prop :=
  ∀ t, HostOp.txn t ∈ ops → t.ok = true ∧ region t.addr ≠ .unmapped

end Sys2Proof.Machine
end

