-- ==== Sys2Proof/Certificates/Slice0/Obligations.lean ====
section
/-! DEFINITION. The statements for the provers. Each docstring names the rule of spec/ it follows. -/

open Sys2Proof Sys2Proof.Machine

/-! ## Encoding -/

/-- 30_encoding.md R89, R90: encoding a well-formed command and decoding the word gives it back, with
every operand at every value. -/
def Obligations.DecodeOfEncodeIsIdentity : Prop :=
  ∀ i : Instr, i.wf = true → decode (encode i) = .ok i

/-- R85 (one encoding per command), R89: a word that decodes to a command is that command's word, and
the command is well-formed. -/
def Obligations.EncodeOfDecodeIsIdentity : Prop :=
  ∀ (w : Word) (i : Instr), decode w = .ok i → i.wf = true ∧ encode i = w

/-- R90: the word of each command, by the rule's shifts, and the rule's two examples. -/
def Obligations.EncodedWordByShifts : Prop :=
  (∀ (d a b : Slot) (n : Nat), (Instr.add d a b n).wf = true →
    (encode (.add d a b n)).toNat =
      ((n - 1) <<< 29) ||| (b.val <<< 24) ||| (a.val <<< 16) ||| (d.val <<< 8) ||| 0x1) ∧
  (∀ (d a b : Slot) (n : Nat), (Instr.sub d a b n).wf = true →
    (encode (.sub d a b n)).toNat =
      ((n - 1) <<< 29) ||| (b.val <<< 24) ||| (a.val <<< 16) ||| (d.val <<< 8) ||| 0x2) ∧
  (∀ (d a : Slot) (n : Nat), (Instr.reduce d a n).wf = true →
    (encode (.reduce d a n)).toNat =
      ((n - 1) <<< 29) ||| (0 <<< 24) ||| (a.val <<< 16) ||| (d.val <<< 8) ||| 0x3) ∧
  (∀ (d a : Slot) (n : Nat), (Instr.caddq d a n).wf = true →
    (encode (.caddq d a n)).toNat =
      ((n - 1) <<< 29) ||| (0 <<< 24) ||| (a.val <<< 16) ||| (d.val <<< 8) ||| 0x4) ∧
  (∀ (d a : Slot) (n : Nat), (Instr.shiftl d a n).wf = true →
    (encode (.shiftl d a n)).toNat =
      ((n - 1) <<< 29) ||| (0 <<< 24) ||| (a.val <<< 16) ||| (d.val <<< 8) ||| 0x5) ∧
  encode (.add 2 0 1 1) = 0x01000201 ∧ encode (.reduce 5 5 4) = 0x60050503

/-- R94: the match and mask table, the fields that are free, and what a word that matches no row is. -/
def Obligations.MatchAndMaskTable : Prop :=
  ∀ (w : Word) (d a b : Slot) (n : Nat),
    d.val = w.toNat / 2 ^ 8 % 32 → a.val = w.toNat / 2 ^ 16 % 32 → b.val = w.toNat / 2 ^ 24 % 32 →
    n = w.toNat / 2 ^ 29 + 1 →
    (w &&& 0x00E0E0FF = 0x00000001 → decode w = .ok (.add d a b n) ∨ decode w = .error .slotRange ∨
      decode w = .error .overlap) ∧
    (w &&& 0x00E0E0FF = 0x00000002 → decode w = .ok (.sub d a b n) ∨ decode w = .error .slotRange ∨
      decode w = .error .overlap) ∧
    (w &&& 0x1FE0E0FF = 0x00000003 → decode w = .ok (.reduce d a n) ∨ decode w = .error .slotRange ∨
      decode w = .error .overlap) ∧
    (w &&& 0x1FE0E0FF = 0x00000004 → decode w = .ok (.caddq d a n) ∨ decode w = .error .slotRange ∨
      decode w = .error .overlap) ∧
    (w &&& 0x1FE0E0FF = 0x00000005 → decode w = .ok (.shiftl d a n) ∨ decode w = .error .slotRange ∨
      decode w = .error .overlap) ∧
    (w &&& 0x00E0E0FF ≠ 0x00000001 → w &&& 0x00E0E0FF ≠ 0x00000002 →
      w &&& 0x1FE0E0FF ≠ 0x00000003 → w &&& 0x1FE0E0FF ≠ 0x00000004 →
      w &&& 0x1FE0E0FF ≠ 0x00000005 →
      (w.toNat % 16 = 0 ∨ 6 ≤ w.toNat % 16 → decode w = .error .badOpcode) ∧
      (1 ≤ w.toNat % 16 ∧ w.toNat % 16 ≤ 5 → decode w = .error .rsvdNonzero))

/-- R85 to R88 and the order of 60_exceptions.md R164, for every word: which error it gets, and when
none. -/
def Obligations.DecodeTestsInFixedOrder : Prop :=
  ∀ (w : Word) (op r0 d r1 a r2 b n : Nat),
    op = w.toNat % 2 ^ 4 → r0 = w.toNat / 2 ^ 4 % 2 ^ 4 → d = w.toNat / 2 ^ 8 % 2 ^ 5 →
    r1 = w.toNat / 2 ^ 13 % 2 ^ 3 → a = w.toNat / 2 ^ 16 % 2 ^ 5 → r2 = w.toNat / 2 ^ 21 % 2 ^ 3 →
    b = w.toNat / 2 ^ 24 % 2 ^ 5 → n = w.toNat / 2 ^ 29 + 1 →
    (¬ (1 ≤ op ∧ op ≤ 5) → decode w = .error .badOpcode) ∧
    (1 ≤ op ∧ op ≤ 5 →
      (¬ (r0 = 0 ∧ r1 = 0 ∧ r2 = 0 ∧ (3 ≤ op → b = 0)) → decode w = .error .rsvdNonzero) ∧
      (r0 = 0 ∧ r1 = 0 ∧ r2 = 0 ∧ (3 ≤ op → b = 0) →
        (¬ (d + n - 1 ≤ 31 ∧ a + n - 1 ≤ 31 ∧ (op ≤ 2 → b + n - 1 ≤ 31)) →
          decode w = .error .slotRange) ∧
        (d + n - 1 ≤ 31 ∧ a + n - 1 ≤ 31 ∧ (op ≤ 2 → b + n - 1 ≤ 31) →
          (¬ ((a = d ∨ a + n ≤ d ∨ d + n ≤ a) ∧ (op ≤ 2 → b = d ∨ b + n ≤ d ∨ d + n ≤ b)) →
            decode w = .error .overlap) ∧
          ((a = d ∨ a + n ≤ d ∨ d + n ≤ a) ∧ (op ≤ 2 → b = d ∨ b + n ≤ d ∨ d + n ≤ b) →
            ∃ i, decode w = .ok i))))

/-- 95_test_vectors.md 3.1: a few words written out from the encoding decode to their commands. -/
def Obligations.SampleWordsDecode : Prop :=
  decode 0x01000201 = .ok (.add 2 0 1 1) ∧ decode 0x90000802 = .ok (.sub 8 0 16 5) ∧
  decode 0x60050503 = .ok (.reduce 5 5 4) ∧ decode 0x00030304 = .ok (.caddq 3 3 1) ∧
  decode 0x20000405 = .ok (.shiftl 4 0 2)

/-- R91: no word the assembler emits is rejected by the block except with CMD_BUSY: an idle block
accepts it. -/
def Obligations.AssembledWordIsAccepted : Prop :=
  ∀ (i : Instr) (w : Word) (s : State) (rest : List Agent) (ops : List HostOp),
    assemble i = some w → s.infl = none → s.sched = .host :: rest → s.host = wr 0x000C w :: ops →
    ∃ t, step s = .next t ∧ t.infl = some w ∧ InFlight i t ∧ t.status.busy = true ∧
      t.status.err = s.status.err

/-- R91, R92, R93: the expansion of each pseudo-instruction, its commands with a `wait` between each
two; when it exists: the count in 1..8, no range past slot 31, A = D or disjoint ranges, and for mov
and neg disjoint ranges only; and every CMD write of it is a valid command. -/
def Obligations.ExpansionsAreValidCommands : Prop :=
  (∀ (d a : Slot) (n : Nat),
    (Pseudo.zero d n).expand =
      (if 1 ≤ n ∧ n ≤ 8 ∧ d.val + n ≤ 32 then some [wr 0x000C (encode (.sub d d d n))] else none) ∧
    (Pseudo.dbl d a n).expand =
      (if (1 ≤ n ∧ n ≤ 8 ∧ d.val + n ≤ 32 ∧ a.val + n ≤ 32) ∧
          (a = d ∨ a.val + n ≤ d.val ∨ d.val + n ≤ a.val) then
        some [wr 0x000C (encode (.add d a a n))] else none) ∧
    (Pseudo.freeze d a n).expand =
      (if (1 ≤ n ∧ n ≤ 8 ∧ d.val + n ≤ 32 ∧ a.val + n ≤ 32) ∧
          (a = d ∨ a.val + n ≤ d.val ∨ d.val + n ≤ a.val) then
        some [wr 0x000C (encode (.reduce d a n)), .wait, wr 0x000C (encode (.caddq d d n))]
      else none) ∧
    (Pseudo.mov d a n).expand =
      (if (1 ≤ n ∧ n ≤ 8 ∧ d.val + n ≤ 32 ∧ a.val + n ≤ 32) ∧
          (a.val + n ≤ d.val ∨ d.val + n ≤ a.val) then
        some [wr 0x000C (encode (.sub d d d n)), .wait, wr 0x000C (encode (.add d a d n))]
      else none) ∧
    (Pseudo.neg d a n).expand =
      (if (1 ≤ n ∧ n ≤ 8 ∧ d.val + n ≤ 32 ∧ a.val + n ≤ 32) ∧
          (a.val + n ≤ d.val ∨ d.val + n ≤ a.val) then
        some [wr 0x000C (encode (.sub d d d n)), .wait, wr 0x000C (encode (.sub d d a n))]
      else none)) ∧
  ∀ (p : Pseudo) (ops : List HostOp), p.expand = some ops →
    ∀ o, o ∈ ops → o = .wait ∨ ∃ w i, o = wr 0x000C w ∧ decode w = .ok i ∧ i ∈ p.commands

/-! ## Scalar primitives -/

/-- 40_poly_arith.md R111: residue, range, and the two bounds reached. -/
def Obligations.CentralReduceRangeAndResidue : Prop :=
  (∀ a : Int, -2 ^ 31 ≤ a → a ≤ 2 ^ 31 - 1 →
    reduce32 a % 8380417 = a % 8380417 ∧ -6283009 ≤ reduce32 a ∧ reduce32 a ≤ 6283008) ∧
  reduce32 2143289343 = 6283008 ∧ reduce32 (-2143289344) = -6283009

/-- R112: the identity band, the band where a 32-bit wrapping adder would give a different and
non-congruent result, and two values that are not canonical. -/
def Obligations.CentralReduceSubRanges : Prop :=
  (∀ a : Int, -4194304 ≤ a → a ≤ 4194303 → (a + 2 ^ 22) / 2 ^ 23 = 0 ∧ reduce32 a = a) ∧
  (∀ a : Int, 2143289344 ≤ a → a ≤ 2147483647 →
    (a + 2 ^ 22) / 2 ^ 23 = 256 ∧ reduce32 a = a - 2145386752 ∧ -2097408 ≤ reduce32 a ∧
      reduce32 a ≤ 2096895 ∧
      wrap32 (a - wrap32 (a + 2 ^ 22) / 2 ^ 23 * 8380417) ≠ reduce32 a ∧
      wrap32 (a - wrap32 (a + 2 ^ 22) / 2 ^ 23 * 8380417) % 8380417 ≠ a % 8380417) ∧
  reduce32 (8380417 - 1) = -1 ∧ reduce32 4194304 = -4186113

/-- R113, R114: what caddq gives, with its range; it keeps the residue, is canonical on [-Q, Q - 1],
and what it gives outside. -/
def Obligations.CaddqRangeAndResidue : Prop :=
  ∀ a : Int, -2 ^ 31 ≤ a → a ≤ 2 ^ 31 - 1 →
    (a < 0 → caddq a = a + 8380417 ∧ -2 ^ 31 + 8380417 ≤ caddq a ∧ caddq a ≤ 8380417 - 1) ∧
    (0 ≤ a → caddq a = a) ∧ caddq a % 8380417 = a % 8380417 ∧
    (-8380417 ≤ a → a ≤ 8380416 → 0 ≤ caddq a ∧ caddq a ≤ 8380416) ∧
    (8380417 ≤ a → caddq a = a) ∧ (a < -8380417 → caddq a = a + 8380417 ∧ caddq a < 0)

/-- R115, R116: the three wrapping primitives wrap modulo 2^32 into int32, indicate an overflow
exactly outside their domains, and are exact inside. -/
def Obligations.OverflowDomains : Prop :=
  ∀ x y : Int, -2 ^ 31 ≤ x → x ≤ 2 ^ 31 - 1 → -2 ^ 31 ≤ y → y ≤ 2 ^ 31 - 1 →
    ((add32 x y).2 = false ↔ -2 ^ 31 ≤ x + y ∧ x + y ≤ 2 ^ 31 - 1) ∧
    ((sub32 x y).2 = false ↔ -2 ^ 31 ≤ x - y ∧ x - y ≤ 2 ^ 31 - 1) ∧
    ((shl13 x).2 = false ↔ -262144 ≤ x ∧ x ≤ 262143) ∧
    ((add32 x y).2 = false → (add32 x y).1 = x + y) ∧
    ((sub32 x y).2 = false → (sub32 x y).1 = x - y) ∧
    ((shl13 x).2 = false → (shl13 x).1 = x * 8192) ∧
    (add32 x y).1 % 2 ^ 32 = (x + y) % 2 ^ 32 ∧ (sub32 x y).1 % 2 ^ 32 = (x - y) % 2 ^ 32 ∧
    (shl13 x).1 % 2 ^ 32 = x * 8192 % 2 ^ 32 ∧
    (∀ r, r = add32 x y ∨ r = sub32 x y ∨ r = shl13 x → -2 ^ 31 ≤ r.1 ∧ r.1 ≤ 2 ^ 31 - 1)

/-- R126, R127: without an overflow each result is congruent to the exact one mod Q; with one it
differs by a nonzero multiple of 2^32, whose residue is not 0, and is not congruent. add32 is
commutative, `sub32(x, x)` is (0, 0), and reduce32 and caddq keep the residue. -/
def Obligations.CongruenceModQ : Prop :=
  (2 : Int) ^ 32 % 8380417 = 4193792 ∧
  (∀ x y : Int, add32 x y = add32 y x ∧ sub32 x x = (0, false)) ∧
  (∀ a : Int, reduce32 a % 8380417 = a % 8380417 ∧ caddq a % 8380417 = a % 8380417) ∧
  ∀ x y : Int, -2 ^ 31 ≤ x → x ≤ 2 ^ 31 - 1 → -2 ^ 31 ≤ y → y ≤ 2 ^ 31 - 1 →
    ∀ (e : Int) (r : Int × Bool),
      (e = x + y ∧ r = add32 x y) ∨ (e = x - y ∧ r = sub32 x y) ∨ (e = x * 8192 ∧ r = shl13 x) →
      (r.2 = false → r.1 % 8380417 = e % 8380417) ∧
      (r.2 = true → (∃ m : Int, m ≠ 0 ∧ r.1 = e + m * 2 ^ 32) ∧ r.1 % 8380417 ≠ e % 8380417)

/-! ## The commands: results and completion -/

/-- R117, R118, R166: add completes in every state; each result is the wrapped sum of what the sources
hold, and OVF is set if some exact sum leaves int32. Where the sources share slots that nothing has
written, that both reads agree is the model's reading (log 12). -/
def Obligations.AddCompletes : Prop :=
  ∀ (d a b : Slot) (n : Nat) (s : State),
    ∃ t, exec (.add d a b n) s = .next t ∧
      (∀ p, p < n → ∀ k, k < 256 →
        t.coeff (d.val + p) k = wrap32 (s.coeff (a.val + p) k + s.coeff (b.val + p) k)) ∧
      (t.status.ovf = true ↔ s.status.ovf = true ∨
        ∃ p, p < n ∧ ∃ k, k < 256 ∧
          ¬ (-2 ^ 31 ≤ s.coeff (a.val + p) k + s.coeff (b.val + p) k ∧
            s.coeff (a.val + p) k + s.coeff (b.val + p) k ≤ 2 ^ 31 - 1))

/-- R117, R119, R166: sub, A minus B. Where the sources share slots that nothing has written, that both
reads agree (so that `sub d, d, d` leaves 0 there, which R193 does not promise) is the model's reading
(log 12). -/
def Obligations.SubCompletes : Prop :=
  ∀ (d a b : Slot) (n : Nat) (s : State),
    ∃ t, exec (.sub d a b n) s = .next t ∧
      (∀ p, p < n → ∀ k, k < 256 →
        t.coeff (d.val + p) k = wrap32 (s.coeff (a.val + p) k - s.coeff (b.val + p) k)) ∧
      (t.status.ovf = true ↔ s.status.ovf = true ∨
        ∃ p, p < n ∧ ∃ k, k < 256 ∧
          ¬ (-2 ^ 31 ≤ s.coeff (a.val + p) k - s.coeff (b.val + p) k ∧
            s.coeff (a.val + p) k - s.coeff (b.val + p) k ≤ 2 ^ 31 - 1))

/-- R110, R117, R120, R166: reduce; the result is the central reduce of the source, congruent to it mod
Q and in [-6283009, 6283008], and OVF is left alone. -/
def Obligations.ReduceCompletes : Prop :=
  ∀ (d a : Slot) (n : Nat) (s : State),
    ∃ t, exec (.reduce d a n) s = .next t ∧ t.status.ovf = s.status.ovf ∧
      ∀ p, p < n → ∀ k, k < 256 →
        t.coeff (d.val + p) k =
          s.coeff (a.val + p) k - (s.coeff (a.val + p) k + 2 ^ 22) / 2 ^ 23 * 8380417 ∧
        t.coeff (d.val + p) k % 8380417 = s.coeff (a.val + p) k % 8380417 ∧
        -6283009 ≤ t.coeff (d.val + p) k ∧ t.coeff (d.val + p) k ≤ 6283008

/-- R113, R117, R121, R166: caddq; OVF is left alone. -/
def Obligations.CaddqCompletes : Prop :=
  ∀ (d a : Slot) (n : Nat) (s : State),
    ∃ t, exec (.caddq d a n) s = .next t ∧ t.status.ovf = s.status.ovf ∧
      ∀ p, p < n → ∀ k, k < 256 →
        t.coeff (d.val + p) k =
          if s.coeff (a.val + p) k < 0 then s.coeff (a.val + p) k + 8380417
          else s.coeff (a.val + p) k

/-- R115, R117, R122, R166: shiftl, multiplication by 2^13 with wrap and OVF. -/
def Obligations.ShiftlCompletes : Prop :=
  ∀ (d a : Slot) (n : Nat) (s : State),
    ∃ t, exec (.shiftl d a n) s = .next t ∧
      (∀ p, p < n → ∀ k, k < 256 →
        t.coeff (d.val + p) k = wrap32 (s.coeff (a.val + p) k * 8192)) ∧
      (t.status.ovf = true ↔ s.status.ovf = true ∨
        ∃ p, p < n ∧ ∃ k, k < 256 ∧
          ¬ (-262144 ≤ s.coeff (a.val + p) k ∧ s.coeff (a.val + p) k ≤ 262143))

/-- R22, R117 to R122, the frame of every command: a command that reaches a next state leaves every
byte outside its destination slots, INFL, every STATUS bit but OVF, CTRL.IE, ERRINFO and the host's
side as they were; OVF, once set, stays set, and reduce and caddq do not write it. That the free contents
of unwritten coefficients stay (the epoch) is the model's reading (log 12). -/
def Obligations.CommandFrame : Prop :=
  ∀ (i : Instr) (s t : State), exec i s = .next t →
    (∀ x, x < 0x8000 + 0x400 * i.dst.val ∨ 0x8000 + 0x400 * (i.dst.val + i.count) ≤ x →
      t.P.byte? x = s.P.byte? x) ∧
    t.infl = s.infl ∧ t.status.busy = s.status.busy ∧ t.status.done = s.status.done ∧
    t.status.err = s.status.err ∧ t.status.errcode = s.status.errcode ∧ t.ie = s.ie ∧
    t.errinfo = s.errinfo ∧ t.host = s.host ∧ t.sched = s.sched ∧ t.resp = s.resp ∧
    t.epoch = s.epoch ∧ (s.status.ovf = true → t.status.ovf = true) ∧
    (∀ d a n, i = .reduce d a n ∨ i = .caddq d a n → t.status.ovf = s.status.ovf)

/-- 10_state.md R24, 60_exceptions.md R166, 92_eei_decisions.md D29: every command runs in every state,
also where nothing has written a source; its destination holds values afterwards, and no other
coefficient comes to hold one. That it runs on an unwritten source is the model's choice against the
fault of U1 (log 2), and that an unwritten coefficient holds what it held is its reading (log 12). -/
def Obligations.CommandRunsOnAnySources : Prop :=
  ∀ (i : Instr) (s : State), ∃ t, exec i s = .next t ∧
    (∀ p, p < i.count → ∀ k, k < 256 → t.written (i.dst.val + p) k = true) ∧
    (∀ q k, k < 256 → q < i.dst.val ∨ i.dst.val + i.count ≤ q →
      t.written q k = s.written q k ∧ t.coeff q k = s.coeff q k)

/-- R124: the freeze law, on numbers and as two commands one after the other. -/
def Obligations.FreezeYieldsCanonicalResidues : Prop :=
  (∀ x : Int, -2 ^ 31 ≤ x → x ≤ 2 ^ 31 - 1 →
    caddq (reduce32 x) = x % 8380417 ∧ 0 ≤ x % 8380417 ∧ x % 8380417 ≤ 8380417 - 1) ∧
  ∀ (d a : Slot) (n : Nat) (s : State),
    ∃ t u, exec (.reduce d a n) s = .next t ∧ exec (.caddq d d n) t = .next u ∧
      u.status.ovf = s.status.ovf ∧
      ∀ p, p < n → ∀ k, k < 256 → u.coeff (d.val + p) k = s.coeff (a.val + p) k % 8380417

/-- 30_encoding.md R93, `zero`, of slots that have been written (70_reset_and_hazards.md R193 lets `zero`
initialise no others): every coefficient 0, OVF never set. -/
def Obligations.ZeroClearsSlots : Prop :=
  ∀ (d : Slot) (n : Nat) (s : State), Readable s d n →
    ∃ t, exec (.sub d d d n) s = .next t ∧ t.status.ovf = s.status.ovf ∧
      ∀ p, p < n → ∀ k, k < 256 → t.coeff (d.val + p) k = 0

/-- R93, `mov` on disjoint ranges, into slots that have been written, as its first command `zero` asks
(R193): a copy, the source kept, OVF never set. Of a source that nothing has written, that the copy and
the source read afterwards agree is the model's reading (log 12). -/
def Obligations.MovCopiesSlots : Prop :=
  ∀ (d a : Slot) (n : Nat) (s : State), Readable s d n → a.val + n ≤ d.val ∨ d.val + n ≤ a.val →
    ∃ t u, exec (.sub d d d n) s = .next t ∧ exec (.add d a d n) t = .next u ∧
      u.status.ovf = s.status.ovf ∧
      ∀ p, p < n → ∀ k, k < 256 →
        u.coeff (d.val + p) k = s.coeff (a.val + p) k ∧
        u.coeff (a.val + p) k = s.coeff (a.val + p) k

/-- R93, `neg` on disjoint ranges, into slots that have been written (R193): only -2^31 overflows. Of a
source that nothing has written, that the second command finds what it held before the first is the
model's reading (log 12). -/
def Obligations.NegNegatesSlots : Prop :=
  ∀ (d a : Slot) (n : Nat) (s : State), Readable s d n → a.val + n ≤ d.val ∨ d.val + n ≤ a.val →
    ∃ t u, exec (.sub d d d n) s = .next t ∧ exec (.sub d d a n) t = .next u ∧
      (u.status.ovf = true ↔ s.status.ovf = true ∨
        ∃ p, p < n ∧ ∃ k, k < 256 ∧ s.coeff (a.val + p) k = -2 ^ 31) ∧
      ∀ p, p < n → ∀ k, k < 256 →
        u.coeff (d.val + p) k =
          if s.coeff (a.val + p) k = -2 ^ 31 then -2 ^ 31 else - s.coeff (a.val + p) k

/-- R125, 70_reset_and_hazards.md R199: with every input in its domain each output bound holds and
no command sets OVF. Where add or sub reads a slot that nothing has written as both sources, that the
reads agree is the model's reading (log 12). -/
def Obligations.OutputBoundsInDomain : Prop :=
  ∀ (d a b : Slot) (n : Nat) (s : State),
    ((∀ p, p < n → ∀ k, k < 256 →
        InDomain (.add d a b n) (s.coeff (a.val + p) k) (s.coeff (b.val + p) k) = true) →
      ∃ t, exec (.add d a b n) s = .next t ∧ t.status.ovf = s.status.ovf ∧
        ∀ p, p < n → ∀ k, k < 256 →
          t.coeff (d.val + p) k = s.coeff (a.val + p) k + s.coeff (b.val + p) k) ∧
    ((∀ p, p < n → ∀ k, k < 256 →
        InDomain (.sub d a b n) (s.coeff (a.val + p) k) (s.coeff (b.val + p) k) = true) →
      ∃ t, exec (.sub d a b n) s = .next t ∧ t.status.ovf = s.status.ovf ∧
        ∀ p, p < n → ∀ k, k < 256 →
          t.coeff (d.val + p) k = s.coeff (a.val + p) k - s.coeff (b.val + p) k) ∧
    ((∀ p, p < n → ∀ k, k < 256 → InDomain (.shiftl d a n) (s.coeff (a.val + p) k) 0 = true) →
      ∃ t, exec (.shiftl d a n) s = .next t ∧ t.status.ovf = s.status.ovf ∧
        ∀ p, p < n → ∀ k, k < 256 → t.coeff (d.val + p) k = s.coeff (a.val + p) k * 8192) ∧
    ((∀ p, p < n → ∀ k, k < 256 → InDomain (.caddq d a n) (s.coeff (a.val + p) k) 0 = true) →
      ∃ t, exec (.caddq d a n) s = .next t ∧ t.status.ovf = s.status.ovf ∧
        ∀ p, p < n → ∀ k, k < 256 → 0 ≤ t.coeff (d.val + p) k ∧ t.coeff (d.val + p) k ≤ 8380416 ∧
          t.coeff (d.val + p) k % 8380417 = s.coeff (a.val + p) k % 8380417)

/-- R127: add32 is commutative in value and flag, so the two sources of an add may be exchanged
(unwritten ones too, by log 12). -/
def Obligations.AddSourcesCommute : Prop :=
  ∀ (d a b : Slot) (n : Nat) (s : State), exec (.add d a b n) s = exec (.add d b a n) s

/-! ## Steps of the engine -/

/-- 60_exceptions.md R166, 40_poly_arith.md R117: a step of the engine's turn with a valid command in
flight is `exec` of the decoded command, completed by `retire`; so is a step when no turn is laid down
(log 3). -/
def Obligations.StepRunsTheDecodedCommand : Prop :=
  ∀ (s : State) (w : Word) (i : Instr), s.infl = some w → decode w = .ok i →
    (∀ rest, s.sched = .engine :: rest → step s = mapNext retire (exec i { s with sched := rest })) ∧
    (s.sched = [] → step s = mapNext retire (exec i s))

/-- R166: completion is enabled whenever a command is in flight and cannot fail, whatever its sources
hold: `exec` has a next state, and in the same step as the results INFL becomes none, BUSY 0 and DONE 1;
the rest is as `exec` leaves it. -/
def Obligations.CompletionAlwaysSucceeds : Prop :=
  ∀ (s : State) (i : Instr) (rest : List Agent), InFlight i s → s.sched = .engine :: rest →
    ∃ u, exec i { s with sched := rest } = .next u ∧
      step s = .next { u with infl := none, status := { u.status with busy := false, done := true } }

/-- R59, R62, R166, R195, R196: whatever the host issues while a command is in flight, after any number
of host turns the engine's turn completes the command with the results it would have had at once. The
first clause is for any host items, in runs that go on after a bus error (log 5); the second is for
items that raise none, in plain runs. Of an unwritten source, that it holds at the completion what it
held before is the model's reading (log 12). -/
def Obligations.CommandCompletesWhateverTheHostDoes : Prop :=
  ∀ (k : Nat) (s : State) (i : Instr) (rest : List Agent), InFlight i s →
    s.sched = List.replicate k .host ++ .engine :: rest →
    (∃ t u, Host.Core.run coreThroughBusErrors (k + 1) s = .next t ∧ exec i s = .next u ∧
      t.P = u.P ∧ t.infl = none ∧ t.status.busy = false ∧ t.status.done = true ∧ t.sched = rest) ∧
    (Benign s.host →
      ∃ t u, Host.Core.run Sys2Proof.core (k + 1) s = .next t ∧ exec i s = .next u ∧ t.P = u.P ∧
        t.infl = none ∧ t.status.busy = false ∧ t.status.done = true ∧ t.sched = rest)

/-- 40_poly_arith.md R128: of two states that differ only in coefficients, OVF and the last bus response,
one steps to a next state where the other does, and the steps leave the same INFL, BUSY, DONE, ERR,
ERRCODE, CTRL.IE, ERRINFO, host items and turns: no coefficient decides when a command is accepted or
completes. The coefficients are the written bytes and, by the epoch, the free ones (log 2). -/
def Obligations.ControlIndependentOfCoefficients : Prop :=
  ∀ (s t : State) (m : Memory) (e : Nat) (o : Bool) (r : Option Response),
    step s = .next t →
    ∃ t', step { s with P := m, epoch := e, status := { s.status with ovf := o }, resp := r }
        = .next t' ∧
      t'.infl = t.infl ∧ t'.status.busy = t.status.busy ∧ t'.status.done = t.status.done ∧
      t'.status.err = t.status.err ∧ t'.status.errcode = t.status.errcode ∧ t'.ie = t.ie ∧
      t'.errinfo = t.errinfo ∧ t'.host = t.host ∧ t'.sched = t.sched

/-! ## Issue, rejection, clearing -/

/-- R165: a CMD write of a valid command to an idle block sets INFL, BUSY and clears DONE at the write
itself; everything else stays. -/
def Obligations.AcceptanceOfACommand : Prop :=
  ∀ (s : State) (w : Word) (i : Instr) (rest : List Agent) (ops : List HostOp),
    s.infl = none → decode w = .ok i → s.sched = .host :: rest → s.host = wr 0x000C w :: ops →
    step s = .next { s with
      infl := some w, status := { s.status with busy := true, done := false },
      host := ops, sched := rest, resp := some .okay }

/-- R163, with the codes of R161 by number: a CMD write of an invalid word to an idle block, and any
CMD write to a busy one. The first error since the last clear is kept; DONE is set unless the block was
busy; nothing else changes. -/
def Obligations.RejectionOfACommand : Prop :=
  ∀ (s : State) (w : Word) (rest : List Agent) (ops : List HostOp),
    s.sched = .host :: rest → s.host = wr 0x000C w :: ops →
    (∀ (e : CmdError) (code : BitVec 4),
      (e, code) ∈ [(CmdError.badOpcode, (2 : BitVec 4)), (CmdError.rsvdNonzero, 3),
        (CmdError.slotRange, 4), (CmdError.overlap, 5)] →
      s.infl = none → decode w = .error e →
      step s = .next { s with
        status := { s.status with
          done := true, err := true,
          errcode := if s.status.err = true then s.status.errcode else code },
        errinfo := if s.status.err = true then s.errinfo else w,
        host := ops, sched := rest, resp := some .okay }) ∧
    decode w ≠ .error .cmdBusy ∧
    (s.infl ≠ none →
      step s = .next { s with
        status := { s.status with
          err := true, errcode := if s.status.err = true then s.status.errcode else 1 },
        errinfo := if s.status.err = true then s.errinfo else w,
        host := ops, sched := rest, resp := some .okay })

/-- 10_state.md R35: CTRL after reset, a write of v to CTRL, and a read of CTRL. -/
def Obligations.CtrlWriteAndRead : Prop :=
  State.reset.ie = false ∧ ∀ (s : State) (rest : List Agent) (ops : List HostOp), s.sched = .host :: rest →
    (∀ v : Word, s.host = wr 0x0008 v :: ops →
      (v.getLsbD 1 = true →
        step s = .next { s with
          ie := v.getLsbD 0,
          status := { s.status with done := false, err := false, errcode := 0, ovf := false },
          errinfo := 0, host := ops, sched := rest, resp := some .okay }) ∧
      (v.getLsbD 1 = false →
        step s = .next { s with
          ie := v.getLsbD 0, host := ops, sched := rest, resp := some .okay })) ∧
    (s.host = rd 0x0008 :: ops →
      step s = .next { s with
        host := ops, sched := rest, resp := some (.data (if s.ie = true then 1 else 0)) })

/-- 60_exceptions.md R168: the interrupt output, and its rise at a completion and fall at a clear. -/
def Obligations.InterruptLevel : Prop :=
  (∀ s : State, s.irq = true ↔ s.ie = true ∧ (s.status.done = true ∨ s.status.err = true)) ∧
  (∀ (s t : State) (i : Instr) (rest : List Agent), InFlight i s → s.sched = .engine :: rest →
    step s = .next t → t.irq = s.ie) ∧
  (∀ (s t : State) (v : Word) (rest : List Agent) (ops : List HostOp),
    s.sched = .host :: rest → s.host = wr 0x0008 v :: ops → v.getLsbD 1 = true →
    step s = .next t → t.irq = false)

/-! ## The bus -/

/-- 20_memory.md R56, R58: a read of each register, at any time, returns its word and changes nothing
of the block. -/
def Obligations.RegisterReads : Prop :=
  ∀ (s : State) (a : Addr) (w : Word) (rest : List Agent) (ops : List HostOp),
    (a, w) ∈ [((0x0000 : Addr), (0x007FE001 : Word)), (0x0004, s.status.word),
      (0x0008, BitVec.ofNat 32 s.ie.toNat), (0x000C, 0), (0x0010, s.errinfo), (0x0014, 0x0D200100)] →
    s.sched = .host :: rest → s.host = rd a :: ops →
    step s = .next { s with host := ops, sched := rest, resp := some (.data w) }

/-- 10_state.md R29: the fields of STATUS at their places, and the reserved bits 0. -/
def Obligations.StatusFieldsAtTheirBits : Prop :=
  ∀ t : Status, t.word.getLsbD 0 = t.busy ∧ t.word.getLsbD 1 = t.done ∧ t.word.getLsbD 2 = t.err ∧
    t.word.getLsbD 3 = t.ovf ∧ t.word.toNat / 2 ^ 4 % 2 ^ 4 = t.errcode.toNat ∧ t.word.toNat / 2 ^ 8 = 0

/-- R58: a write to a read-only register is ignored with an OKAY response. -/
def Obligations.ReadOnlyWritesIgnored : Prop :=
  ∀ (s : State) (a : Addr) (w : Word) (rest : List Agent) (ops : List HostOp),
    a ∈ [(0x0000 : Addr), 0x0004, 0x0010, 0x0014] → s.sched = .host :: rest → s.host = wr a w :: ops →
    step s = .next { s with host := ops, sched := rest, resp := some .okay }

/-- 20_memory.md R52: slot and index of a window offset, in both directions. -/
def Obligations.WindowOffsets : Prop :=
  (∀ k i : Nat, k < 32 → i < 256 →
    region (BitVec.ofNat 16 (0x8000 + 0x400 * k + 4 * i)) = .window k i) ∧
  (∀ a : Addr, 0x8000 ≤ a.toNat → a.toNat % 4 = 0 →
    region a = .window (a.toNat / 2 ^ 10 % 2 ^ 5) (a.toNat / 2 ^ 2 % 2 ^ 8) ∧
    a.toNat = 0x8000 + 0x400 * (a.toNat / 2 ^ 10 % 2 ^ 5) + 4 * (a.toNat / 2 ^ 2 % 2 ^ 8))

/-- R52, R55, R57: a window write to an idle block puts the word into its coefficient, least
significant byte lowest, and leaves every other byte and every register as it was. -/
def Obligations.WindowWrite : Prop :=
  ∀ (s : State) (k i : Nat) (w : Word) (rest : List Agent) (ops : List HostOp),
    k < 32 → i < 256 → s.infl = none → s.sched = .host :: rest →
    s.host = wr (BitVec.ofNat 16 (0x8000 + 0x400 * k + 4 * i)) w :: ops →
    ∃ m, step s = .next { s with P := m, host := ops, sched := rest, resp := some .okay } ∧
      (∀ l, l < 4 → m.byte? (0x8000 + 0x400 * k + 4 * i + l)
        = some (BitVec.ofNat 8 (w.toNat / 2 ^ (8 * l)))) ∧
      (∀ x, x < 0x8000 + 0x400 * k + 4 * i ∨ 0x8000 + 0x400 * k + 4 * i + 4 ≤ x →
        m.byte? x = s.P.byte? x) ∧
      ({ s with P := m } : State).coeff k i = w.toInt ∧
      ({ s with P := m } : State).written k i = true

/-- R52, R56: a window read of an idle block returns the coefficient's word and changes nothing of the
block. Of a coefficient that nothing has written this is its free value (D29; log 2), and the step is
one that U1 lets a model fault. -/
def Obligations.WindowRead : Prop :=
  ∀ (s : State) (k i : Nat) (rest : List Agent) (ops : List HostOp),
    k < 32 → i < 256 → s.infl = none → s.sched = .host :: rest →
    s.host = rd (BitVec.ofNat 16 (0x8000 + 0x400 * k + 4 * i)) :: ops →
    step s = .next { s with
      host := ops, sched := rest, resp := some (.data (BitVec.ofInt 32 (s.coeff k i))) } ∧
    (ReadsUnwritten s ↔ s.written k i = false)

/-- R61: a window read right after a window write of the same coefficient returns the word written. -/
def Obligations.WindowReadAfterWrite : Prop :=
  ∀ (s : State) (k i : Nat) (w : Word) (rest : List Agent) (ops : List HostOp),
    k < 32 → i < 256 → s.infl = none → s.sched = .host :: .host :: rest →
    s.host = wr (BitVec.ofNat 16 (0x8000 + 0x400 * k + 4 * i)) w ::
      rd (BitVec.ofNat 16 (0x8000 + 0x400 * k + 4 * i)) :: ops →
    ∃ t, Host.Core.run Sys2Proof.core 2 s = .next t ∧ t.resp = some (.data w)

/-- R53, R54, 60_exceptions.md R160, R162: a misaligned, narrow or unmapped transaction is a fault of
the host's step; the block goes on after it with nothing changed. That the run goes on at
`stepThroughBusErrors` is log 5. That a narrow or misaligned window transaction is not held while a
command is in flight is read from the order of the tests in R56 and R57 (log 20). -/
def Obligations.BusErrors : Prop :=
  ∀ (s : State) (t : Txn) (rest : List Agent) (ops : List HostOp),
    s.sched = .host :: rest → s.host = .txn t :: ops →
    (t.addr.toNat % 4 ≠ 0 ∨ t.width ≠ 4 ∨ t.lanes ≠ 0xF ∨
      (0x0018 ≤ t.addr.toNat ∧ t.addr.toNat ≤ 0x7FFF)) →
    step s = .fault (.busError t.addr) ∧
    stepThroughBusErrors s =
      .next { s with host := ops, sched := rest, resp := some (.error t.addr) }

/-- R59: while a command is in flight a window transaction takes no step and is still next; a reset
lifts the hold, and then it faces the reset state. The host's turn is used up (log 6), a reset leaves
the host's items (log 14), and the read then returns a value that nothing has written, a free one
(R24, D29; log 2). -/
def Obligations.WindowTransactionHeld : Prop :=
  ∀ (s : State) (t : Txn) (w : Word) (rest : List Agent) (ops : List HostOp),
    s.infl = some w → s.host = .txn t :: ops → t.addr.toNat % 4 = 0 → t.width = 4 → t.lanes = 0xF →
    0x8000 ≤ t.addr.toNat →
    (s.sched = .host :: rest → step s = .next { s with sched := rest }) ∧
    (s.sched = .reset :: .host :: rest →
      ∃ r, step s = .next r ∧ r.host = s.host ∧ r.P = [] ∧ held t r = false ∧
        (t.op = .read → ReadsUnwritten r ∧ ∃ r' v, step r = .next r' ∧ r'.resp = some (.data v) ∧
          r'.host = ops) ∧
        (∀ v, t.op = .write v → ∃ r', step r = .next r' ∧ r'.resp = some .okay ∧
          r'.P.word? t.addr.toNat = some v))

/-- R59, R60, 70_reset_and_hazards.md R196: a window read issued while a command is in flight returns
the value after the completion (of a coefficient still unwritten, by log 12). -/
def Obligations.HeldReadSeesTheCompletedValue : Prop :=
  ∀ (s u : State) (c : Instr) (k i : Nat) (v : Int) (rest : List Agent) (ops : List HostOp),
    InFlight c s → exec c s = .next u → k < 32 → i < 256 → u.coeff k i = v →
    s.sched = .host :: .engine :: .host :: rest →
    s.host = rd (BitVec.ofNat 16 (0x8000 + 0x400 * k + 4 * i)) :: ops →
    ∃ t, Host.Core.run Sys2Proof.core 3 s = .next t ∧ t.resp = some (.data (BitVec.ofInt 32 v)) ∧
      t.P = u.P

/-- 30_encoding.md R92: `wait` reads STATUS, stays while BUSY is 1 and ends when it is 0. -/
def Obligations.WaitPollsBusy : Prop :=
  ∀ (s : State) (rest : List Agent) (ops : List HostOp),
    s.sched = .host :: rest → s.host = .wait :: ops →
    step s = .next { s with
      host := if s.status.busy = true then .wait :: ops else ops, sched := rest,
      resp := some (.data s.status.word) }

/-! ## Reset and legal states -/

/-- 70_reset_and_hazards.md R190: reset, between any two steps, as one atomic step; afterwards irq is
0 and no coefficient has been written, so that what each holds is a free value (log 2). That nothing is
held then is R59 of 20_memory.md; that the host's items stay is the model's reading of R59 (log 14). -/
def Obligations.ResetStep : Prop :=
  ∀ (s : State) (rest : List Agent), s.sched = .reset :: rest →
    ∃ t, step s = .next t ∧ t.infl = none ∧ t.status.word = 0 ∧ t.ie = false ∧ t.errinfo = 0 ∧
      (∀ k i, t.written k i = false) ∧ (∀ x, t.P.byte? x = none) ∧ t.irq = false ∧
      (∀ x, held x t = false) ∧ t.host = s.host ∧ t.sched = rest

/-- 10_state.md R24, R38: the state after reset. -/
def Obligations.StateAfterReset : Prop :=
  (∀ k i, State.reset.written k i = false) ∧ State.reset.infl = none ∧ State.reset.status.word = 0 ∧
  State.reset.ctrlWord = 0 ∧ State.reset.errinfo = 0 ∧ State.reset.irq = false ∧
  constqWord = 0x007FE001 ∧ infoWord = 0x0D200100

/-- 10_state.md R25, R30, R37, 60_exceptions.md R161, 20_memory.md R60: the state after reset is
legal. -/
def Obligations.ResetIsLegal : Prop := Inv State.reset

/-- 10_state.md R25, R30, R37, 60_exceptions.md R161, 20_memory.md R60: every step keeps a state
legal: BUSY is INFL, the word in flight is valid, ERRCODE is 0 exactly when ERR is, BUSY excludes
DONE, no reserved code appears, ERRINFO is 0 without an error, the store stays canonical, inside the
window and whole in its words. -/
def Obligations.StepKeepsLegalStates : Prop :=
  ∀ s t : State, Inv s → step s = .next t → Inv t

/-- 60_exceptions.md R164, R165: from a legal state no step is refused. -/
def Obligations.LegalStatesAreNeverRefused : Prop :=
  ∀ (s : State) (r : Refusal), Inv s → step s ≠ .refused r

/-! ## Rules of the whole machine -/

/-- 10_state.md R33: once set, ERR, ERRCODE and ERRINFO stay until CTRL.CLR or reset. -/
def Obligations.FirstErrorIsKept : Prop :=
  ∀ s t : State, step s = .next t → s.status.err = true →
    (t.status.err = true ∧ t.status.errcode = s.status.errcode ∧ t.errinfo = s.errinfo) ∨
    ResetTurn s ∨ ClearNext s

/-- 10_state.md R34: OVF is set only by the completion of an add, sub or shiftl, and cleared only by
CTRL.CLR or reset. -/
def Obligations.OvfSetAndCleared : Prop :=
  ∀ s t : State, step s = .next t →
    (s.status.ovf = false → t.status.ovf = true →
      ∃ i d a n, EngineTurn s ∧ InFlight i s ∧ t.infl = none ∧ t.status.done = true ∧
        ((∃ b, i = .add d a b n ∨ i = .sub d a b n) ∨ i = .shiftl d a n)) ∧
    (s.status.ovf = true → t.status.ovf = false → ResetTurn s ∨ ClearNext s)

/-- 10_state.md R31: BUSY rises only at the acceptance of a command and falls only at its completion
or a reset. -/
def Obligations.BusySpan : Prop :=
  ∀ s t : State, step s = .next t →
    (s.status.busy = false → t.status.busy = true →
      ∃ w i, WriteNext 0x000C w s ∧ s.infl = none ∧ decode w = .ok i ∧ t.infl = some w) ∧
    (s.status.busy = true → t.status.busy = false →
      ResetTurn s ∨
        ∃ i u, EngineTurn s ∧ InFlight i s ∧ exec i s = .next u ∧ t.P = u.P ∧ t.status.done = true)

/-- 10_state.md R32: DONE rises only at a completion or at the rejection of a command by an idle
block, and falls only at an acceptance, CTRL.CLR or reset. -/
def Obligations.DoneSpan : Prop :=
  ∀ s t : State, step s = .next t →
    (s.status.done = false → t.status.done = true →
      (∃ i u, EngineTurn s ∧ InFlight i s ∧ exec i s = .next u ∧ t.P = u.P ∧ t.infl = none) ∨
      ∃ w e, WriteNext 0x000C w s ∧ s.infl = none ∧ decode w = .error e ∧ t.status.err = true) ∧
    (s.status.done = true → t.status.done = false →
      ResetTurn s ∨ ClearNext s ∨
      ∃ w i, WriteNext 0x000C w s ∧ s.infl = none ∧ decode w = .ok i ∧ t.infl = some w)

/-- 10_state.md R25, 20_memory.md R63: a command in flight is never exchanged for another: after a step
it is still in flight or none is. -/
def Obligations.CommandInFlightIsNotReplaced : Prop :=
  ∀ (s t : State) (w : Word), step s = .next t → s.infl = some w → t.infl = some w ∨ t.infl = none

/-- 10_state.md R22: a byte of the coefficient store changes only at a reset, by a window write of its
coefficient to an idle block, or by the completion of a command that names its slot as destination. -/
def Obligations.CoefficientsChangeOnlySo : Prop :=
  ∀ (s t : State) (x : Nat), step s = .next t → t.P.byte? x ≠ s.P.byte? x →
    ResetTurn s ∨
    (s.infl = none ∧ ∃ (a : Addr) (w : Word), WriteNext a w s ∧ 0x8000 ≤ a.toNat ∧ a.toNat ≤ x ∧
      x < a.toNat + 4) ∨
    ∃ i, EngineTurn s ∧ InFlight i s ∧ t.infl = none ∧ 0x8000 + 0x400 * i.dst.val ≤ x ∧
      x < 0x8000 + 0x400 * (i.dst.val + i.count)

/-- 60_exceptions.md R167, U9: a CTRL write with CLR = 1 racing a completion. Both orders are runs; CLR
first leaves DONE at 1, CLR second leaves it at 0. -/
def Obligations.ClearRacesCompletion : Prop :=
  ∀ (s : State) (i : Instr) (v : Word) (rest : List Agent) (ops : List HostOp),
    InFlight i s → v.getLsbD 1 = true → s.host = wr 0x0008 v :: ops →
    (s.sched = .host :: .engine :: rest →
      ∃ t, Host.Core.run Sys2Proof.core 2 s = .next t ∧ t.infl = none ∧ t.status.done = true) ∧
    (s.sched = .engine :: .host :: rest →
      ∃ t, Host.Core.run Sys2Proof.core 2 s = .next t ∧ t.infl = none ∧ t.status.done = false)

/-- 70_reset_and_hazards.md R195, 95_test_vectors.md P4: a second command written without waiting.
Written first, it is dropped with CMD_BUSY; written after the completion, it is accepted. -/
def Obligations.SecondCommandRacesCompletion : Prop :=
  ∀ (s : State) (i j : Instr) (v : Word) (rest : List Agent) (ops : List HostOp),
    InFlight i s → decode v = .ok j → s.status.err = false →
    s.host = wr 0x000C v :: ops →
    (s.sched = .host :: .engine :: rest →
      ∃ t, Host.Core.run Sys2Proof.core 2 s = .next t ∧ t.infl = none ∧ t.status.err = true ∧
        t.status.errcode = 1 ∧ t.errinfo = v ∧ t.status.done = true) ∧
    (s.sched = .engine :: .host :: rest →
      ∃ t, Host.Core.run Sys2Proof.core 2 s = .next t ∧ t.infl = some v ∧ t.status.err = false ∧
        t.status.busy = true ∧ t.status.done = false)

/-! ## Coefficients that nothing has written -/

/-- 93_implementation_defined.md U1 with 10_state.md R24, 70_reset_and_hazards.md R193 and
60_exceptions.md R166: a completion is a read U1 lets a model fault exactly if some source coefficient
of the command in flight has not been written since reset, and the step is the completion all the
same: it retires the command. That it goes on there with free values is log 2. -/
def Obligations.UnwrittenSourcesAreReadAndRun : Prop :=
  ∀ (s : State) (i : Instr) (rest : List Agent), InFlight i s → s.sched = .engine :: rest →
    (ReadsUnwritten s ↔ ∃ a, a ∈ i.sources ∧ ∃ p, p < i.count ∧ ∃ k, k < 256 ∧
      s.written (a.val + p) k = false) ∧
    ∃ t, step s = .next t ∧ t.infl = none ∧ t.status.busy = false ∧ t.status.done = true ∧
      ∀ p, p < i.count → ∀ k, k < 256 → t.written (i.dst.val + p) k = true

/-- U1, D29: a step that reads no unwritten coefficient does not depend on the free contents: with any
other epoch it has the same next state. So a claim about strict steps rests on no free value. Strict steps and
the epoch are the model's (log 2). -/
def Obligations.StrictStepsReadNoFreeValue : Prop :=
  ∀ (s t : State) (e : Nat), StrictStep s (.next t) →
    ∃ e', StrictStep { s with epoch := e } (.next { t with epoch := e' })
end

