-- ==== Sys2Proof/Laws/Decode.lean ====
section
/-! SUPPORT. The decoder, test by test, and the fields of an encoded word. -/

namespace Sys2Proof

/-- A range of slots fits, as plain arithmetic. -/
theorem rangeFits_iff {s : Slot} {n : Nat} : rangeFits s n = true ↔ s.val + n ≤ 32 := by
  simp only [rangeFits, decide_eq_true_eq]
  omega

theorem sameOrDisjoint_iff {s d : Slot} {n : Nat} :
    sameOrDisjoint s d n = true ↔ s = d ∨ s.val + n ≤ d.val ∨ d.val + n ≤ s.val := by
  simp [sameOrDisjoint, or_assoc]

/-- The reserved-bits test, field by field (R85). -/
theorem reservedOk_iff {w : Word} :
    reservedOk w = true ↔ bits w 7 4 = 0 ∧ bits w 15 13 = 0 ∧ bits w 23 21 = 0 ∧
      (bits w 3 0 = 1 ∨ bits w 3 0 = 2 ∨ bits w 28 24 = 0) := by
  simp [reservedOk, isBinaryOp, and_assoc, or_assoc]

/-- The slot-range test, operand by operand (R86). -/
theorem slotRangeOk_iff {w : Word} :
    slotRangeOk w = true ↔
      (slotField w 8).val + countField w ≤ 32 ∧ (slotField w 16).val + countField w ≤ 32 ∧
      (bits w 3 0 = 1 ∨ bits w 3 0 = 2 → (slotField w 24).val + countField w ≤ 32) := by
  simp only [slotRangeOk, isBinaryOp, Bool.and_eq_true, Bool.or_eq_true, Bool.not_eq_true',
    rangeFits_iff, ← Bool.not_eq_true, beq_iff_eq, and_assoc]
  omega

/-- The overlap test, source by source (R88). -/
theorem noPartialOverlap_iff {w : Word} :
    noPartialOverlap w = true ↔
      (slotField w 16 = slotField w 8 ∨ (slotField w 16).val + countField w ≤ (slotField w 8).val ∨
        (slotField w 8).val + countField w ≤ (slotField w 16).val) ∧
      (bits w 3 0 = 1 ∨ bits w 3 0 = 2 →
        slotField w 24 = slotField w 8 ∨ (slotField w 24).val + countField w ≤ (slotField w 8).val ∨
          (slotField w 8).val + countField w ≤ (slotField w 24).val) := by
  simp only [noPartialOverlap, isBinaryOp, Bool.and_eq_true, Bool.or_eq_true, Bool.not_eq_true',
    sameOrDisjoint_iff, ← Bool.not_eq_true, beq_iff_eq]
  tauto

/-- Well-formedness of a command with one source. -/
theorem wf_unary {i : Instr} (h : i.srcB = none) :
    i.wf = true ↔ (1 ≤ i.count ∧ i.count ≤ 8) ∧
      (i.dst.val + i.count ≤ 32 ∧ i.srcA.val + i.count ≤ 32) ∧
      (i.srcA = i.dst ∨ i.srcA.val + i.count ≤ i.dst.val ∨ i.dst.val + i.count ≤ i.srcA.val) := by
  simp [Instr.wf, Instr.countOk, Instr.rangeOk, Instr.overlapOk, Instr.sources, h, and_assoc,
    or_assoc, Config.NSLOT, Config.VCNT_MAX]

/-- Well-formedness of a command with two sources. -/
theorem wf_binary {i : Instr} {b : Slot} (h : i.srcB = some b) :
    i.wf = true ↔ (1 ≤ i.count ∧ i.count ≤ 8) ∧
      (i.dst.val + i.count ≤ 32 ∧ i.srcA.val + i.count ≤ 32 ∧ b.val + i.count ≤ 32) ∧
      (i.srcA = i.dst ∨ i.srcA.val + i.count ≤ i.dst.val ∨ i.dst.val + i.count ≤ i.srcA.val) ∧
      (b = i.dst ∨ b.val + i.count ≤ i.dst.val ∨ i.dst.val + i.count ≤ b.val) := by
  simp [Instr.wf, Instr.countOk, Instr.rangeOk, Instr.overlapOk, Instr.sources, h, and_assoc,
    or_assoc, Config.NSLOT, Config.VCNT_MAX]

theorem countOk_of_wf {i : Instr} (h : i.wf = true) : i.countOk = true := by
  simp only [Instr.wf, Bool.and_eq_true] at h
  exact h.1.1

/-- What decoding can answer: the tests in their order. -/
theorem decode_cases (w : Word) :
    (instrOf w = none ∧ decode w = .error .badOpcode) ∨
    (∃ i, instrOf w = some i ∧ reservedOk w = false ∧ decode w = .error .rsvdNonzero) ∨
    (∃ i, instrOf w = some i ∧ reservedOk w = true ∧ slotRangeOk w = false ∧
      decode w = .error .slotRange) ∨
    (∃ i, instrOf w = some i ∧ reservedOk w = true ∧ slotRangeOk w = true ∧
      noPartialOverlap w = false ∧ decode w = .error .overlap) ∨
    (∃ i, instrOf w = some i ∧ reservedOk w = true ∧ slotRangeOk w = true ∧
      noPartialOverlap w = true ∧ decode w = .ok i) := by
  unfold decode
  cases hi : instrOf w with
  | none => simp
  | some i => cases reservedOk w <;> cases slotRangeOk w <;> cases noPartialOverlap w <;> simp

/-- A word decodes to a command exactly when the OP names one and every test passes. -/
theorem decode_eq_ok_iff {w : Word} {i : Instr} :
    decode w = .ok i ↔ instrOf w = some i ∧ reservedOk w = true ∧ slotRangeOk w = true ∧
      noPartialOverlap w = true := by
  rcases decode_cases w with ⟨h, hd⟩ | ⟨j, h, h1, hd⟩ | ⟨j, h, h1, h2, hd⟩ | ⟨j, h, h1, h2, h3, hd⟩ |
    ⟨j, h, h1, h2, h3, hd⟩ <;> rw [hd] <;> simp_all

/-- Decoding never answers CMD_BUSY. -/
theorem decode_ne_cmdBusy (w : Word) : decode w ≠ .error .cmdBusy := by
  rcases decode_cases w with ⟨h, hd⟩ | ⟨j, h, h1, hd⟩ | ⟨j, h, h1, h2, hd⟩ | ⟨j, h, h1, h2, h3, hd⟩ |
    ⟨j, h, h1, h2, h3, hd⟩ <;> rw [hd] <;> simp

/-- The code of an error is one of 1..5. -/
theorem code_bounds (e : CmdError) : e.code ≠ 0 ∧ e.code.toNat ≤ 5 := by
  cases e <;> decide

/-- The OP values and the commands they name. -/
theorem instrOf_eq_some_iff {w : Word} {i : Instr} :
    instrOf w = some i ↔
      (bits w 3 0 = 1 ∧ i = .add (slotField w 8) (slotField w 16) (slotField w 24) (countField w)) ∨
      (bits w 3 0 = 2 ∧ i = .sub (slotField w 8) (slotField w 16) (slotField w 24) (countField w)) ∨
      (bits w 3 0 = 3 ∧ i = .reduce (slotField w 8) (slotField w 16) (countField w)) ∨
      (bits w 3 0 = 4 ∧ i = .caddq (slotField w 8) (slotField w 16) (countField w)) ∨
      (bits w 3 0 = 5 ∧ i = .shiftl (slotField w 8) (slotField w 16) (countField w)) := by
  unfold instrOf
  dsimp only
  constructor
  · intro h
    split at h <;> cases h <;> simp_all
  · rintro (⟨h, rfl⟩ | ⟨h, rfl⟩ | ⟨h, rfl⟩ | ⟨h, rfl⟩ | ⟨h, rfl⟩) <;> simp [h]

/-- OP names no command exactly outside 1..5. -/
theorem instrOf_eq_none_iff {w : Word} : instrOf w = none ↔ ¬ (1 ≤ bits w 3 0 ∧ bits w 3 0 ≤ 5) := by
  constructor
  · intro h hc
    obtain h' | h' | h' | h' | h' : bits w 3 0 = 1 ∨ bits w 3 0 = 2 ∨ bits w 3 0 = 3 ∨
        bits w 3 0 = 4 ∨ bits w 3 0 = 5 := by omega
    all_goals simp [instrOf, h'] at h
  · intro h
    cases hi : instrOf w with
    | none => rfl
    | some i =>
      rcases instrOf_eq_some_iff.mp hi with ⟨ho, -⟩ | ⟨ho, -⟩ | ⟨ho, -⟩ | ⟨ho, -⟩ | ⟨ho, -⟩ <;> omega

/-- The count is never below 1 nor above 8. -/
theorem countField_bounds (w : Word) : 1 ≤ countField w ∧ countField w ≤ 8 := by
  simp only [countField, bits]
  omega

/-- A word is the sum of its eight fields at their places (30_encoding.md R81). -/
theorem toNat_eq_fields (w : Word) :
    w.toNat = (countField w - 1) * 536870912 + bits w 28 24 * 16777216 + bits w 23 21 * 2097152
      + (slotField w 16).val * 65536 + bits w 15 13 * 8192 + (slotField w 8).val * 256
      + bits w 7 4 * 16 + bits w 3 0 := by
  have h := w.isLt
  simp only [countField, bits, slotField]
  omega

/-! ## Fields of an encoded word -/

/-- The number an encoded command is, all of whose fields fit. -/
theorem encode_toNat {i : Instr} (h : i.countOk = true) :
    (encode i).toNat = (i.count - 1) * 536870912 + i.srcBField * 16777216 + i.srcA.val * 65536
      + i.dst.val * 256 + i.op := by
  have hb : i.srcBField < 32 := by
    cases i <;> simp only [Instr.srcBField, Instr.srcB] <;> omega
  have ho : i.op < 16 := by cases i <;> simp [Instr.op]
  have ha := i.srcA.isLt
  have hd := i.dst.isLt
  simp only [Instr.countOk, Bool.and_eq_true, decide_eq_true_eq, Config.VCNT_MAX] at h
  simp only [encode, BitVec.toNat_ofNat]
  omega

/-- Every field of an encoded command reads back, and its reserved bits are 0. -/
structure FieldsOf (i : Instr) (w : Word) : Prop where
  op : bits w 3 0 = i.op
  rsv0 : bits w 7 4 = 0
  dst : slotField w 8 = i.dst
  rsv1 : bits w 15 13 = 0
  srcA : slotField w 16 = i.srcA
  rsv2 : bits w 23 21 = 0
  srcB : bits w 28 24 = i.srcBField
  count : countField w = i.count

theorem encode_fields {i : Instr} (h : i.countOk = true) : FieldsOf i (encode i) := by
  have hw := encode_toNat h
  have hb : i.srcBField < 32 := by
    cases i <;> simp only [Instr.srcBField, Instr.srcB] <;> omega
  have ho : i.op < 16 := by cases i <;> simp [Instr.op]
  have ha := i.srcA.isLt
  have hd := i.dst.isLt
  simp only [Instr.countOk, Bool.and_eq_true, decide_eq_true_eq, Config.VCNT_MAX] at h
  constructor
  all_goals
    first
    | (apply Fin.ext; simp only [slotField, hw]; omega)
    | (simp only [bits, countField, hw]; omega)

/-- The SRCB field as a slot. -/
theorem slotField_srcB (w : Word) : (slotField w 24).val = bits w 28 24 := rfl

end Sys2Proof
end

