-- ==== Sys2Proof/Laws/Memory.lean ====
section
/-! SUPPORT. What the operations over the coefficient store do: bytes and words after a store, block
reads as pointwise reads, and the canonical form. -/

namespace Sys2Proof.Machine

/-! ## Lanes -/

/-- A word is put together again from its four lanes. -/
@[simp] theorem wordOfLanes_laneByte (w : Word) :
    wordOfLanes (laneByte w 0) (laneByte w 1) (laneByte w 2) (laneByte w 3) = w := by
  apply BitVec.eq_of_toNat_eq
  have := w.isLt
  simp only [wordOfLanes, laneByte, BitVec.toNat_ofNat]
  omega

/-! ## Bytes -/

@[simp] theorem byte?_nil (a : Nat) : Memory.byte? [] a = none := rfl

theorem byte?_cons (c : Host.Cell) (m : Memory) (a : Nat) :
    Memory.byte? (c :: m) a = if c.1 = a then some c.2 else m.byte? a := rfl

theorem byte?_append (m m' : Memory) (a : Nat) :
    Memory.byte? (m ++ m') a = (m.byte? a).or (m'.byte? a) := by
  induction m with
  | nil => simp
  | cons c m ih =>
    simp only [List.cons_append, byte?_cons]
    split <;> simp_all

/-- Filtering by address keeps the bytes at the addresses it keeps. -/
theorem byte?_filter (q : Nat → Bool) (m : Memory) (a : Nat) :
    Memory.byte? (m.filter fun c => q c.1) a = if q a then m.byte? a else none := by
  induction m with
  | nil => simp
  | cons c m ih =>
    rw [List.filter_cons]
    by_cases hq : q c.1 <;> by_cases ha : c.1 = a <;> simp_all [byte?_cons]

/-- Dropping a stretch below `c` keeps every byte from `c` on. -/
theorem byte?_dropWhile {c a : Nat} (h : c ≤ a) (m : Memory) :
    Memory.byte? (m.dropWhile fun x => decide (x.1 < c)) a = m.byte? a := by
  induction m with
  | nil => rfl
  | cons x m ih =>
    by_cases hx : x.1 < c
    · have : x.1 ≠ a := by omega
      simp [hx, byte?_cons, this, ih]
    · simp [hx]

theorem byte?_wordCells_outside {a x : Nat} {ws : List Word}
    (h : x < a ∨ a + 4 * ws.length ≤ x) : (wordCells a ws).byte? x = none := by
  induction ws generalizing a with
  | nil => rfl
  | cons w ws ih =>
    simp only [List.length_cons] at h
    simp only [wordCells, byte?_cons]
    rw [if_neg (by omega), if_neg (by omega), if_neg (by omega), if_neg (by omega)]
    exact ih (by omega)

theorem byte?_wordCells_inside {a j k : Nat} {ws : List Word} (hj : j < ws.length) (hk : k < 4) :
    (wordCells a ws).byte? (a + 4 * j + k) = some (laneByte ws[j] k) := by
  induction ws generalizing a j with
  | nil => simp at hj
  | cons w ws ih =>
    simp only [wordCells, byte?_cons]
    cases j with
    | zero =>
      obtain rfl | rfl | rfl | rfl : k = 0 ∨ k = 1 ∨ k = 2 ∨ k = 3 := by omega
      all_goals simp
    | succ j =>
      rw [if_neg (by omega), if_neg (by omega), if_neg (by omega), if_neg (by omega)]
      have := ih (a := a + 4) (j := j) (by simpa using hj)
      rw [show a + 4 * (j + 1) + k = a + 4 + 4 * j + k by omega]
      simpa using this

/-- A store leaves every byte outside the stored words alone. -/
theorem byte?_storeWords_outside {m : Memory} {a x : Nat} {ws : List Word}
    (h : x < a ∨ a + 4 * ws.length ≤ x) : (m.storeWords a ws).byte? x = m.byte? x := by
  have lo := byte?_filter (fun k => decide (k < a)) m x
  have hi := byte?_filter (fun k => decide (a + 4 * ws.length ≤ k)) m x
  simp only [Memory.storeWords, byte?_append, lo, hi, byte?_wordCells_outside h]
  rcases h with h | h
  · simp [h, show ¬ a + 4 * ws.length ≤ x by omega]
  · simp [h, show ¬ x < a by omega]

/-- Byte lane `k` of the `j`-th stored word. -/
theorem byte?_storeWords_inside {m : Memory} {a j k : Nat} {ws : List Word} (hj : j < ws.length)
    (hk : k < 4) : (m.storeWords a ws).byte? (a + 4 * j + k) = some (laneByte ws[j] k) := by
  have lo := byte?_filter (fun k => decide (k < a)) m (a + 4 * j + k)
  simp only [Memory.storeWords, byte?_append, lo, byte?_wordCells_inside hj hk]
  simp [show ¬ a + 4 * j + k < a by omega]

/-! ## Words -/

/-- Words are equal where their bytes are. -/
theorem word?_congr {m m' : Memory} {a : Nat} (h : ∀ k, k < 4 → m.byte? (a + k) = m'.byte? (a + k)) :
    m.word? a = m'.word? a := by
  have h0 := h 0 (by omega)
  simp only [Nat.add_zero] at h0
  simp only [Memory.word?, h0, h 1 (by omega), h 2 (by omega), h 3 (by omega)]

/-- A word has a value exactly when its four bytes have one. -/
theorem word?_isSome {m : Memory} {a : Nat} :
    (m.word? a).isSome = true ↔ ∀ k, k < 4 → (m.byte? (a + k)).isSome = true := by
  constructor
  · intro h k hk
    simp only [Memory.word?] at h
    split at h
    · next h0 h1 h2 h3 =>
      obtain rfl | rfl | rfl | rfl : k = 0 ∨ k = 1 ∨ k = 2 ∨ k = 3 := by omega
      all_goals simp_all
    · simp at h
  · intro h
    have h0 := h 0 (by omega)
    simp only [Nat.add_zero] at h0
    obtain ⟨b0, h0⟩ := Option.isSome_iff_exists.mp h0
    obtain ⟨b1, h1⟩ := Option.isSome_iff_exists.mp (h 1 (by omega))
    obtain ⟨b2, h2⟩ := Option.isSome_iff_exists.mp (h 2 (by omega))
    obtain ⟨b3, h3⟩ := Option.isSome_iff_exists.mp (h 3 (by omega))
    simp [Memory.word?, h0, h1, h2, h3]

theorem word?_nil (a : Nat) : Memory.word? [] a = none := rfl

theorem word?_storeWords_outside {m : Memory} {a x : Nat} {ws : List Word}
    (h : x + 4 ≤ a ∨ a + 4 * ws.length ≤ x) : (m.storeWords a ws).word? x = m.word? x :=
  word?_congr fun _ _ => byte?_storeWords_outside (by omega)

/-- The `j`-th stored word reads back. -/
theorem word?_storeWords_inside {m : Memory} {a j : Nat} {ws : List Word} (hj : j < ws.length) :
    (m.storeWords a ws).word? (a + 4 * j) = some ws[j] := by
  have h0 := byte?_storeWords_inside (m := m) (a := a) (k := 0) hj (by omega)
  simp only [Nat.add_zero] at h0
  simp [Memory.word?, h0, byte?_storeWords_inside hj (show 1 < 4 by omega),
    byte?_storeWords_inside hj (show 2 < 4 by omega),
    byte?_storeWords_inside hj (show 3 < 4 by omega)]

theorem word?_dropWhile {c a : Nat} (h : c ≤ a) (m : Memory) :
    Memory.word? (m.dropWhile fun x => decide (x.1 < c)) a = m.word? a :=
  word?_congr fun _ _ => byte?_dropWhile (by omega) m

/-! ## Words as they read -/

/-- Words read the same where their bytes do. -/
theorem wordOr_congr {f f' : Nat → Byte} {m m' : Memory} {a : Nat}
    (h : ∀ k, k < 4 → m.byteOr f (a + k) = m'.byteOr f' (a + k)) : m.wordOr f a = m'.wordOr f' a := by
  have h0 := h 0 (by omega)
  simp only [Nat.add_zero] at h0
  simp only [Memory.wordOr, h0, h 1 (by omega), h 2 (by omega), h 3 (by omega)]

/-- A written word reads as it was written, whatever the unwritten ones hold. -/
theorem wordOr_of_word? {f : Nat → Byte} {m : Memory} {a : Nat} {w : Word} (h : m.word? a = some w) :
    m.wordOr f a = w := by
  simp only [Memory.word?] at h
  split at h
  · next h0 h1 h2 h3 =>
    cases h
    simp [Memory.wordOr, Memory.byteOr, h0, h1, h2, h3]
  · cases h

theorem wordOr_storeWords_outside {f : Nat → Byte} {m : Memory} {a x : Nat} {ws : List Word}
    (h : x + 4 ≤ a ∨ a + 4 * ws.length ≤ x) : (m.storeWords a ws).wordOr f x = m.wordOr f x :=
  wordOr_congr fun k hk => by rw [Memory.byteOr, byte?_storeWords_outside (by omega), Memory.byteOr]

/-- The `j`-th stored word reads back. -/
theorem wordOr_storeWords_inside {f : Nat → Byte} {m : Memory} {a j : Nat} {ws : List Word}
    (hj : j < ws.length) : (m.storeWords a ws).wordOr f (a + 4 * j) = ws[j] :=
  wordOr_of_word? (word?_storeWords_inside hj)

theorem wordOr_dropWhile {f : Nat → Byte} {c a : Nat} (h : c ≤ a) (m : Memory) :
    Memory.wordOr f (m.dropWhile fun x => decide (x.1 < c)) a = m.wordOr f a :=
  wordOr_congr fun k _ => by rw [Memory.byteOr, byte?_dropWhile (by omega), Memory.byteOr]

/-! ## Block reads -/

/-- A block read is the pointwise read of its words. -/
theorem loadWords_eq_map (f : Nat → Byte) (m : Memory) (a k : Nat) :
    m.loadWords f a k = (List.range k).map fun j => m.wordOr f (a + 4 * j) := by
  induction k generalizing m a with
  | zero => rfl
  | succ k ih =>
    rw [Memory.loadWords, ih, List.range_succ_eq_map, List.map_cons, List.map_map,
      wordOr_dropWhile (Nat.le_refl a)]
    refine congrArg _ (List.map_congr_left fun j _ => ?_)
    rw [wordOr_dropWhile (by omega), Function.comp_apply,
      show a + 4 + 4 * j = a + 4 * (j + 1) by omega]

/-! ## The canonical form -/

/-- The canonical form as a relation between any two entries. -/
theorem wf_iff_pairwise {m : Memory} :
    m.wf = true ↔ m.Pairwise fun c c' => c.1 < c'.1 := by
  induction m with
  | nil => simp [Memory.wf]
  | cons c m ih =>
    cases m with
    | nil => simp [Memory.wf]
    | cons c' m =>
      simp only [Memory.wf, Bool.and_eq_true, decide_eq_true_eq, ih]
      rw [List.pairwise_cons (a := c)]
      constructor
      · rintro ⟨h, hp⟩
        refine ⟨fun x hx => ?_, hp⟩
        rcases List.mem_cons.mp hx with rfl | hx
        · exact h
        · exact Nat.lt_trans h ((List.pairwise_cons.mp hp).1 x hx)
      · rintro ⟨h, hp⟩
        exact ⟨h c' (by simp), hp⟩

theorem mem_wordCells_bounds {a : Nat} {ws : List Word} {c : Host.Cell} (h : c ∈ wordCells a ws) :
    a ≤ c.1 ∧ c.1 < a + 4 * ws.length := by
  induction ws generalizing a with
  | nil => simp [wordCells] at h
  | cons w ws ih =>
    simp only [wordCells, List.mem_cons, List.length_cons] at h ⊢
    rcases h with rfl | rfl | rfl | rfl | h
    all_goals first | (constructor <;> simp <;> omega) | (have := ih h; omega)

theorem wordCells_pairwise (a : Nat) (ws : List Word) :
    (wordCells a ws).Pairwise fun c c' => c.1 < c'.1 := by
  induction ws generalizing a with
  | nil => simp [wordCells]
  | cons w ws ih =>
    have hb (c : Host.Cell) (hc : c ∈ wordCells (a + 4) ws) : a + 4 ≤ c.1 :=
      (mem_wordCells_bounds hc).1
    simp only [wordCells, List.pairwise_cons, List.forall_mem_cons]
    refine ⟨⟨by simp, by simp, by simp, fun c hc => ?_⟩, ⟨by simp, by simp, fun c hc => ?_⟩,
      ⟨by simp, fun c hc => ?_⟩, fun c hc => ?_, ih (a + 4)⟩
    all_goals
      have := hb c hc
      show _ < _
      omega

/-- A store keeps the canonical form. -/
theorem storeWords_wf {m : Memory} (h : m.wf = true) (a : Nat) (ws : List Word) :
    (m.storeWords a ws).wf = true := by
  rw [wf_iff_pairwise] at h ⊢
  simp only [Memory.storeWords]
  rw [List.pairwise_append, List.pairwise_append]
  refine ⟨⟨h.filter _, wordCells_pairwise a ws, ?_⟩, h.filter _, ?_⟩
  · intro c hc c' hc'
    have := (mem_wordCells_bounds hc').1
    have := (List.mem_filter.mp hc).2
    simp only [decide_eq_true_eq] at this
    omega
  · intro c hc c' hc'
    have hhi := (List.mem_filter.mp hc').2
    simp only [decide_eq_true_eq] at hhi
    rcases List.mem_append.mp hc with hc | hc
    · have := (List.mem_filter.mp hc).2
      simp only [decide_eq_true_eq] at this
      omega
    · have := (mem_wordCells_bounds hc).2
      omega

/-- Where the entries after a store come from. -/
theorem mem_storeWords {m : Memory} {a : Nat} {ws : List Word} {c : Host.Cell}
    (h : c ∈ m.storeWords a ws) :
    (c ∈ m ∧ (c.1 < a ∨ a + 4 * ws.length ≤ c.1)) ∨ (a ≤ c.1 ∧ c.1 < a + 4 * ws.length) := by
  simp only [Memory.storeWords, List.mem_append, List.mem_filter, decide_eq_true_eq] at h
  rcases h with (h | h) | h
  · exact .inl ⟨h.1, .inl h.2⟩
  · exact .inr (mem_wordCells_bounds h)
  · exact .inl ⟨h.1, .inr h.2⟩

end Sys2Proof.Machine
end

