-- ==== Sys2Proof/Laws/Scalar.lean ====
section
/-! SUPPORT. The scalar primitives: what a stored value reads back as, and where the primitives stay
inside int32. -/

namespace Sys2Proof.Machine

theorem fits32_iff {x : Int} : fits32 x = true ↔ -2147483648 ≤ x ∧ x ≤ 2147483647 := by
  simp [fits32]

/-- Every coefficient is an int32. -/
theorem fits32_toInt (w : Word) : fits32 w.toInt = true := by
  have h1 := BitVec.le_toInt w
  have h2 := BitVec.toInt_lt (x := w)
  rw [fits32_iff]
  omega

theorem wrap32_of_fits {x : Int} (h : fits32 x = true) : wrap32 x = x := by
  rw [fits32_iff] at h
  simp only [wrap32]
  omega

theorem fits32_wrap32 (x : Int) : fits32 (wrap32 x) = true := by
  rw [fits32_iff]
  simp only [wrap32]
  omega

/-- `wrap32` is the identity exactly on int32. -/
theorem wrap32_eq_iff {x : Int} : wrap32 x = x ↔ fits32 x = true :=
  ⟨fun h => h ▸ fits32_wrap32 x, wrap32_of_fits⟩

/-- A wrapped value differs from the exact one by a multiple of 2^32. -/
theorem wrap32_emod (x : Int) : wrap32 x % 2 ^ 32 = x % 2 ^ 32 := by
  simp only [wrap32]
  omega

/-- A value stored as its 32-bit pattern reads back wrapped. -/
theorem toInt_ofInt32 (x : Int) : (BitVec.ofInt 32 x).toInt = wrap32 x := by
  rw [BitVec.toInt_ofInt, Int.bmod_def, wrap32]
  omega

@[simp] theorem wrapped_fst (x : Int) : (wrapped x).1 = wrap32 x := rfl

@[simp] theorem wrapped_snd (x : Int) : (wrapped x).2 = !fits32 x := rfl

/-- The shift of 13 places as the number the spec writes. -/
theorem shl13_eq (x : Int) : shl13 x = wrapped (x * 8192) := rfl

@[simp] theorem wrap32_wrap32 (x : Int) : wrap32 (wrap32 x) = wrap32 x :=
  wrap32_of_fits (fits32_wrap32 x)

/-- The floor division of the central reduce, by its remainder. -/
theorem reduce32_spec (a : Int) :
    ∃ t, (a + 4194304) / 8388608 = t ∧ reduce32 a = a - t * 8380417 ∧
      8388608 * t ≤ a + 4194304 ∧ a + 4194304 < 8388608 * t + 8388608 := by
  refine ⟨_, rfl, ?_, ?_, ?_⟩
  · simp [reduce32]
  · omega
  · omega

theorem fits32_reduce32 {a : Int} (h : fits32 a = true) : fits32 (reduce32 a) = true := by
  obtain ⟨t, -, hr, h1, h2⟩ := reduce32_spec a
  rw [fits32_iff] at h ⊢
  omega

theorem fits32_caddq {a : Int} (h : fits32 a = true) : fits32 (caddq a) = true := by
  rw [fits32_iff] at h ⊢
  simp only [caddq, Config.Q]
  split <;> omega

end Sys2Proof.Machine
end

