-- ==== Sys2Proof/Laws/State.lean ====
section
/-! SUPPORT. What each named update of the state does to each field, so that no proof unfolds a record
update. -/

namespace Sys2Proof.Machine

/-! ## Updates of one form -/

@[simp] theorem respond_P (r : Response) (s : State) : (respond r s).P = s.P := rfl
@[simp] theorem respond_infl (r : Response) (s : State) : (respond r s).infl = s.infl := rfl
@[simp] theorem respond_status (r : Response) (s : State) : (respond r s).status = s.status := rfl
@[simp] theorem respond_ie (r : Response) (s : State) : (respond r s).ie = s.ie := rfl
@[simp] theorem respond_errinfo (r : Response) (s : State) :
    (respond r s).errinfo = s.errinfo := rfl
@[simp] theorem respond_host (r : Response) (s : State) : (respond r s).host = s.host := rfl
@[simp] theorem respond_sched (r : Response) (s : State) : (respond r s).sched = s.sched := rfl
@[simp] theorem respond_resp (r : Response) (s : State) : (respond r s).resp = some r := rfl
@[simp] theorem respond_epoch (r : Response) (s : State) : (respond r s).epoch = s.epoch := rfl

@[simp] theorem popSched_P (s : State) : (popSched s).P = s.P := rfl
@[simp] theorem popSched_infl (s : State) : (popSched s).infl = s.infl := rfl
@[simp] theorem popSched_status (s : State) : (popSched s).status = s.status := rfl
@[simp] theorem popSched_ie (s : State) : (popSched s).ie = s.ie := rfl
@[simp] theorem popSched_errinfo (s : State) : (popSched s).errinfo = s.errinfo := rfl
@[simp] theorem popSched_host (s : State) : (popSched s).host = s.host := rfl
@[simp] theorem popSched_sched (s : State) : (popSched s).sched = s.sched.tail := rfl
@[simp] theorem popSched_resp (s : State) : (popSched s).resp = s.resp := rfl
@[simp] theorem popSched_epoch (s : State) : (popSched s).epoch = s.epoch := rfl

@[simp] theorem popHost_P (s : State) : (popHost s).P = s.P := rfl
@[simp] theorem popHost_infl (s : State) : (popHost s).infl = s.infl := rfl
@[simp] theorem popHost_status (s : State) : (popHost s).status = s.status := rfl
@[simp] theorem popHost_ie (s : State) : (popHost s).ie = s.ie := rfl
@[simp] theorem popHost_errinfo (s : State) : (popHost s).errinfo = s.errinfo := rfl
@[simp] theorem popHost_host (s : State) : (popHost s).host = s.host.tail := rfl
@[simp] theorem popHost_sched (s : State) : (popHost s).sched = s.sched := rfl
@[simp] theorem popHost_resp (s : State) : (popHost s).resp = s.resp := rfl
@[simp] theorem popHost_epoch (s : State) : (popHost s).epoch = s.epoch := rfl

@[simp] theorem accept_P (w : Word) (s : State) : (accept w s).P = s.P := rfl
@[simp] theorem accept_infl (w : Word) (s : State) : (accept w s).infl = some w := rfl
@[simp] theorem accept_status (w : Word) (s : State) :
    (accept w s).status = { s.status with busy := true, done := false } := rfl
@[simp] theorem accept_ie (w : Word) (s : State) : (accept w s).ie = s.ie := rfl
@[simp] theorem accept_errinfo (w : Word) (s : State) : (accept w s).errinfo = s.errinfo := rfl
@[simp] theorem accept_host (w : Word) (s : State) : (accept w s).host = s.host := rfl
@[simp] theorem accept_sched (w : Word) (s : State) : (accept w s).sched = s.sched := rfl
@[simp] theorem accept_resp (w : Word) (s : State) : (accept w s).resp = s.resp := rfl
@[simp] theorem accept_epoch (w : Word) (s : State) : (accept w s).epoch = s.epoch := rfl

@[simp] theorem retire_P (s : State) : (retire s).P = s.P := rfl
@[simp] theorem retire_infl (s : State) : (retire s).infl = none := rfl
@[simp] theorem retire_status (s : State) :
    (retire s).status = { s.status with busy := false, done := true } := rfl
@[simp] theorem retire_ie (s : State) : (retire s).ie = s.ie := rfl
@[simp] theorem retire_errinfo (s : State) : (retire s).errinfo = s.errinfo := rfl
@[simp] theorem retire_host (s : State) : (retire s).host = s.host := rfl
@[simp] theorem retire_sched (s : State) : (retire s).sched = s.sched := rfl
@[simp] theorem retire_resp (s : State) : (retire s).resp = s.resp := rfl
@[simp] theorem retire_epoch (s : State) : (retire s).epoch = s.epoch := rfl

@[simp] theorem resetBlock_P (s : State) : (resetBlock s).P = [] := rfl
@[simp] theorem resetBlock_infl (s : State) : (resetBlock s).infl = none := rfl
@[simp] theorem resetBlock_status (s : State) : (resetBlock s).status = Status.reset := rfl
@[simp] theorem resetBlock_ie (s : State) : (resetBlock s).ie = false := rfl
@[simp] theorem resetBlock_errinfo (s : State) : (resetBlock s).errinfo = 0 := rfl
@[simp] theorem resetBlock_host (s : State) : (resetBlock s).host = s.host := rfl
@[simp] theorem resetBlock_sched (s : State) : (resetBlock s).sched = s.sched := rfl
@[simp] theorem resetBlock_resp (s : State) : (resetBlock s).resp = s.resp := rfl
@[simp] theorem resetBlock_epoch (s : State) : (resetBlock s).epoch = s.epoch + 1 := rfl

@[simp] theorem clearErrors_P (s : State) : (clearErrors s).P = s.P := rfl
@[simp] theorem clearErrors_infl (s : State) : (clearErrors s).infl = s.infl := rfl
@[simp] theorem clearErrors_status (s : State) :
    (clearErrors s).status = { s.status with done := false, err := false, errcode := 0, ovf := false } := rfl
@[simp] theorem clearErrors_ie (s : State) : (clearErrors s).ie = s.ie := rfl
@[simp] theorem clearErrors_errinfo (s : State) : (clearErrors s).errinfo = 0 := rfl
@[simp] theorem clearErrors_host (s : State) : (clearErrors s).host = s.host := rfl
@[simp] theorem clearErrors_sched (s : State) : (clearErrors s).sched = s.sched := rfl
@[simp] theorem clearErrors_resp (s : State) : (clearErrors s).resp = s.resp := rfl
@[simp] theorem clearErrors_epoch (s : State) : (clearErrors s).epoch = s.epoch := rfl

@[simp] theorem writeVec_P (d : Slot) (vs : List Int) (s : State) :
    (writeVec d vs s).P = s.P.storeWords (slotAddr d) (vs.map (BitVec.ofInt 32)) := rfl
@[simp] theorem writeVec_infl (d : Slot) (vs : List Int) (s : State) :
    (writeVec d vs s).infl = s.infl := rfl
@[simp] theorem writeVec_status (d : Slot) (vs : List Int) (s : State) :
    (writeVec d vs s).status = s.status := rfl
@[simp] theorem writeVec_ie (d : Slot) (vs : List Int) (s : State) :
    (writeVec d vs s).ie = s.ie := rfl
@[simp] theorem writeVec_errinfo (d : Slot) (vs : List Int) (s : State) :
    (writeVec d vs s).errinfo = s.errinfo := rfl
@[simp] theorem writeVec_host (d : Slot) (vs : List Int) (s : State) :
    (writeVec d vs s).host = s.host := rfl
@[simp] theorem writeVec_sched (d : Slot) (vs : List Int) (s : State) :
    (writeVec d vs s).sched = s.sched := rfl
@[simp] theorem writeVec_resp (d : Slot) (vs : List Int) (s : State) :
    (writeVec d vs s).resp = s.resp := rfl
@[simp] theorem writeVec_epoch (d : Slot) (vs : List Int) (s : State) :
    (writeVec d vs s).epoch = s.epoch := rfl

@[simp] theorem writeCoeff_P (k i : Nat) (w : Word) (s : State) :
    (writeCoeff k i w s).P = s.P.storeWords (coeffAddr k i) [w] := rfl
@[simp] theorem writeCoeff_infl (k i : Nat) (w : Word) (s : State) :
    (writeCoeff k i w s).infl = s.infl := rfl
@[simp] theorem writeCoeff_status (k i : Nat) (w : Word) (s : State) :
    (writeCoeff k i w s).status = s.status := rfl
@[simp] theorem writeCoeff_ie (k i : Nat) (w : Word) (s : State) :
    (writeCoeff k i w s).ie = s.ie := rfl
@[simp] theorem writeCoeff_errinfo (k i : Nat) (w : Word) (s : State) :
    (writeCoeff k i w s).errinfo = s.errinfo := rfl
@[simp] theorem writeCoeff_host (k i : Nat) (w : Word) (s : State) :
    (writeCoeff k i w s).host = s.host := rfl
@[simp] theorem writeCoeff_sched (k i : Nat) (w : Word) (s : State) :
    (writeCoeff k i w s).sched = s.sched := rfl
@[simp] theorem writeCoeff_resp (k i : Nat) (w : Word) (s : State) :
    (writeCoeff k i w s).resp = s.resp := rfl
@[simp] theorem writeCoeff_epoch (k i : Nat) (w : Word) (s : State) :
    (writeCoeff k i w s).epoch = s.epoch := rfl

@[simp] theorem placeCommand_P (w : Word) (s : State) : (placeCommand w s).P = s.P := rfl
@[simp] theorem placeCommand_infl (w : Word) (s : State) : (placeCommand w s).infl = some w := rfl
@[simp] theorem placeCommand_status (w : Word) (s : State) :
    (placeCommand w s).status = { s.status with busy := true, done := false } := rfl
@[simp] theorem placeCommand_ie (w : Word) (s : State) : (placeCommand w s).ie = s.ie := rfl
@[simp] theorem placeCommand_errinfo (w : Word) (s : State) :
    (placeCommand w s).errinfo = s.errinfo := rfl
@[simp] theorem placeCommand_host (w : Word) (s : State) : (placeCommand w s).host = s.host := rfl
@[simp] theorem placeCommand_sched (w : Word) (s : State) :
    (placeCommand w s).sched = .engine :: s.sched := rfl
@[simp] theorem placeCommand_resp (w : Word) (s : State) : (placeCommand w s).resp = s.resp := rfl
@[simp] theorem placeCommand_epoch (w : Word) (s : State) :
    (placeCommand w s).epoch = s.epoch := rfl

@[simp] theorem afterBusError_P (a : Addr) (s : State) : (s.afterBusError a).P = s.P := rfl
@[simp] theorem afterBusError_infl (a : Addr) (s : State) : (s.afterBusError a).infl = s.infl := rfl
@[simp] theorem afterBusError_status (a : Addr) (s : State) :
    (s.afterBusError a).status = s.status := rfl
@[simp] theorem afterBusError_ie (a : Addr) (s : State) : (s.afterBusError a).ie = s.ie := rfl
@[simp] theorem afterBusError_errinfo (a : Addr) (s : State) :
    (s.afterBusError a).errinfo = s.errinfo := rfl
@[simp] theorem afterBusError_host (a : Addr) (s : State) :
    (s.afterBusError a).host = s.host.tail := rfl
@[simp] theorem afterBusError_sched (a : Addr) (s : State) :
    (s.afterBusError a).sched = s.sched.tail := rfl
@[simp] theorem afterBusError_resp (a : Addr) (s : State) :
    (s.afterBusError a).resp = some (.error a) := rfl
@[simp] theorem afterBusError_epoch (a : Addr) (s : State) :
    (s.afterBusError a).epoch = s.epoch := rfl

/-! ## Updates with a case -/

@[simp] theorem flagOvf_P (o : Bool) (s : State) : (flagOvf o s).P = s.P := by
  cases o <;> simp [flagOvf]
@[simp] theorem flagOvf_infl (o : Bool) (s : State) : (flagOvf o s).infl = s.infl := by
  cases o <;> simp [flagOvf]
@[simp] theorem flagOvf_status (o : Bool) (s : State) :
    (flagOvf o s).status = { s.status with ovf := s.status.ovf || o } := by
  cases o <;> simp [flagOvf]
@[simp] theorem flagOvf_ie (o : Bool) (s : State) : (flagOvf o s).ie = s.ie := by
  cases o <;> simp [flagOvf]
@[simp] theorem flagOvf_errinfo (o : Bool) (s : State) : (flagOvf o s).errinfo = s.errinfo := by
  cases o <;> simp [flagOvf]
@[simp] theorem flagOvf_host (o : Bool) (s : State) : (flagOvf o s).host = s.host := by
  cases o <;> simp [flagOvf]
@[simp] theorem flagOvf_sched (o : Bool) (s : State) : (flagOvf o s).sched = s.sched := by
  cases o <;> simp [flagOvf]
@[simp] theorem flagOvf_resp (o : Bool) (s : State) : (flagOvf o s).resp = s.resp := by
  cases o <;> simp [flagOvf]
@[simp] theorem flagOvf_epoch (o : Bool) (s : State) : (flagOvf o s).epoch = s.epoch := by
  cases o <;> simp [flagOvf]

@[simp] theorem commitVec_P (d : Slot) (rs : List (Int × Bool)) (s : State) :
    (commitVec d rs s).P = s.P.storeWords (slotAddr d) ((rs.map Prod.fst).map (BitVec.ofInt 32)) := by
  simp only [commitVec, flagOvf_P, writeVec_P]
@[simp] theorem commitVec_infl (d : Slot) (rs : List (Int × Bool)) (s : State) :
    (commitVec d rs s).infl = s.infl := by
  simp only [commitVec, flagOvf_infl, writeVec_infl]
@[simp] theorem commitVec_status (d : Slot) (rs : List (Int × Bool)) (s : State) :
    (commitVec d rs s).status = { s.status with ovf := s.status.ovf || rs.any Prod.snd } := by
  simp only [commitVec, flagOvf_status, writeVec_status]
@[simp] theorem commitVec_ie (d : Slot) (rs : List (Int × Bool)) (s : State) :
    (commitVec d rs s).ie = s.ie := by
  simp only [commitVec, flagOvf_ie, writeVec_ie]
@[simp] theorem commitVec_errinfo (d : Slot) (rs : List (Int × Bool)) (s : State) :
    (commitVec d rs s).errinfo = s.errinfo := by
  simp only [commitVec, flagOvf_errinfo, writeVec_errinfo]
@[simp] theorem commitVec_host (d : Slot) (rs : List (Int × Bool)) (s : State) :
    (commitVec d rs s).host = s.host := by
  simp only [commitVec, flagOvf_host, writeVec_host]
@[simp] theorem commitVec_sched (d : Slot) (rs : List (Int × Bool)) (s : State) :
    (commitVec d rs s).sched = s.sched := by
  simp only [commitVec, flagOvf_sched, writeVec_sched]
@[simp] theorem commitVec_resp (d : Slot) (rs : List (Int × Bool)) (s : State) :
    (commitVec d rs s).resp = s.resp := by
  simp only [commitVec, flagOvf_resp, writeVec_resp]
@[simp] theorem commitVec_epoch (d : Slot) (rs : List (Int × Bool)) (s : State) :
    (commitVec d rs s).epoch = s.epoch := by
  simp only [commitVec, flagOvf_epoch, writeVec_epoch]

@[simp] theorem raiseCmdError_P (e : CmdError) (w : Word) (s : State) :
    (raiseCmdError e w s).P = s.P := by
  unfold raiseCmdError; split <;> split <;> simp_all
@[simp] theorem raiseCmdError_infl (e : CmdError) (w : Word) (s : State) :
    (raiseCmdError e w s).infl = s.infl := by
  unfold raiseCmdError; split <;> split <;> simp_all
@[simp] theorem raiseCmdError_ie (e : CmdError) (w : Word) (s : State) :
    (raiseCmdError e w s).ie = s.ie := by
  unfold raiseCmdError; split <;> split <;> simp_all
@[simp] theorem raiseCmdError_errinfo (e : CmdError) (w : Word) (s : State) :
    (raiseCmdError e w s).errinfo = if s.status.err then s.errinfo else w := by
  unfold raiseCmdError; split <;> split <;> simp_all
@[simp] theorem raiseCmdError_host (e : CmdError) (w : Word) (s : State) :
    (raiseCmdError e w s).host = s.host := by
  unfold raiseCmdError; split <;> split <;> simp_all
@[simp] theorem raiseCmdError_sched (e : CmdError) (w : Word) (s : State) :
    (raiseCmdError e w s).sched = s.sched := by
  unfold raiseCmdError; split <;> split <;> simp_all
@[simp] theorem raiseCmdError_resp (e : CmdError) (w : Word) (s : State) :
    (raiseCmdError e w s).resp = s.resp := by
  unfold raiseCmdError; split <;> split <;> simp_all
@[simp] theorem raiseCmdError_epoch (e : CmdError) (w : Word) (s : State) :
    (raiseCmdError e w s).epoch = s.epoch := by
  unfold raiseCmdError; split <;> split <;> simp_all

@[simp] theorem raiseCmdError_status_busy (e : CmdError) (w : Word) (s : State) :
    (raiseCmdError e w s).status.busy = s.status.busy := by
  unfold raiseCmdError; split <;> split <;> simp_all
@[simp] theorem raiseCmdError_status_done (e : CmdError) (w : Word) (s : State) :
    (raiseCmdError e w s).status.done = if e = .cmdBusy then s.status.done else true := by
  unfold raiseCmdError; split <;> split <;> simp_all
@[simp] theorem raiseCmdError_status_err (e : CmdError) (w : Word) (s : State) :
    (raiseCmdError e w s).status.err = true := by
  unfold raiseCmdError; split <;> split <;> simp_all
@[simp] theorem raiseCmdError_status_ovf (e : CmdError) (w : Word) (s : State) :
    (raiseCmdError e w s).status.ovf = s.status.ovf := by
  unfold raiseCmdError; split <;> split <;> simp_all
@[simp] theorem raiseCmdError_status_errcode (e : CmdError) (w : Word) (s : State) :
    (raiseCmdError e w s).status.errcode = if s.status.err then s.status.errcode else e.code := by
  unfold raiseCmdError; split <;> split <;> simp_all

@[simp] theorem ctrlWrite_P (v : Word) (s : State) : (ctrlWrite v s).P = s.P := by
  unfold ctrlWrite; split <;> simp_all
@[simp] theorem ctrlWrite_infl (v : Word) (s : State) : (ctrlWrite v s).infl = s.infl := by
  unfold ctrlWrite; split <;> simp_all
@[simp] theorem ctrlWrite_status (v : Word) (s : State) :
    (ctrlWrite v s).status = if bits v 1 1 = 1 then { s.status with done := false, err := false, errcode := 0, ovf := false } else s.status := by
  unfold ctrlWrite; split <;> simp_all
@[simp] theorem ctrlWrite_ie (v : Word) (s : State) : (ctrlWrite v s).ie = (bits v 0 0 == 1) := by
  unfold ctrlWrite; split <;> simp_all
@[simp] theorem ctrlWrite_errinfo (v : Word) (s : State) :
    (ctrlWrite v s).errinfo = if bits v 1 1 = 1 then 0 else s.errinfo := by
  unfold ctrlWrite; split <;> simp_all
@[simp] theorem ctrlWrite_host (v : Word) (s : State) : (ctrlWrite v s).host = s.host := by
  unfold ctrlWrite; split <;> simp_all
@[simp] theorem ctrlWrite_sched (v : Word) (s : State) : (ctrlWrite v s).sched = s.sched := by
  unfold ctrlWrite; split <;> simp_all
@[simp] theorem ctrlWrite_resp (v : Word) (s : State) : (ctrlWrite v s).resp = s.resp := by
  unfold ctrlWrite; split <;> simp_all
@[simp] theorem ctrlWrite_epoch (v : Word) (s : State) : (ctrlWrite v s).epoch = s.epoch := by
  unfold ctrlWrite; split <;> simp_all

@[simp] theorem issueCommand_P (w : Word) (s : State) : (issueCommand w s).P = s.P := by
  unfold issueCommand; split
  · simp
  · split <;> simp
@[simp] theorem issueCommand_ie (w : Word) (s : State) : (issueCommand w s).ie = s.ie := by
  unfold issueCommand; split
  · simp
  · split <;> simp
@[simp] theorem issueCommand_host (w : Word) (s : State) : (issueCommand w s).host = s.host := by
  unfold issueCommand; split
  · simp
  · split <;> simp
@[simp] theorem issueCommand_sched (w : Word) (s : State) : (issueCommand w s).sched = s.sched := by
  unfold issueCommand; split
  · simp
  · split <;> simp
@[simp] theorem issueCommand_resp (w : Word) (s : State) : (issueCommand w s).resp = s.resp := by
  unfold issueCommand; split
  · simp
  · split <;> simp
@[simp] theorem issueCommand_epoch (w : Word) (s : State) : (issueCommand w s).epoch = s.epoch := by
  unfold issueCommand; split
  · simp
  · split <;> simp

@[simp] theorem waitTurn_P (s : State) : (waitTurn s).P = s.P := by
  unfold waitTurn; split <;> simp_all
@[simp] theorem waitTurn_infl (s : State) : (waitTurn s).infl = s.infl := by
  unfold waitTurn; split <;> simp_all
@[simp] theorem waitTurn_status (s : State) : (waitTurn s).status = s.status := by
  unfold waitTurn; split <;> simp_all
@[simp] theorem waitTurn_ie (s : State) : (waitTurn s).ie = s.ie := by
  unfold waitTurn; split <;> simp_all
@[simp] theorem waitTurn_errinfo (s : State) : (waitTurn s).errinfo = s.errinfo := by
  unfold waitTurn; split <;> simp_all
@[simp] theorem waitTurn_host (s : State) :
    (waitTurn s).host = if s.status.busy then s.host else s.host.tail := by
  unfold waitTurn; split <;> simp_all
@[simp] theorem waitTurn_sched (s : State) : (waitTurn s).sched = s.sched := by
  unfold waitTurn; split <;> simp_all
@[simp] theorem waitTurn_resp (s : State) : (waitTurn s).resp = some (.data s.status.word) := by
  unfold waitTurn; split <;> simp_all
@[simp] theorem waitTurn_epoch (s : State) : (waitTurn s).epoch = s.epoch := by
  unfold waitTurn; split <;> simp_all

/-! ## Outcomes -/

/-- A mapped outcome is a next state only where the outcome is. -/
@[simp] theorem mapNext_eq_next {f : State → State} {o : Host.Outcome State Fault Refusal} {t : State} :
    mapNext f o = .next t ↔ ∃ s, o = .next s ∧ f s = t := by
  cases o <;> simp [mapNext]

@[simp] theorem mapNext_eq_fault {f : State → State} {o : Host.Outcome State Fault Refusal} {e : Fault} :
    mapNext f o = .fault e ↔ o = .fault e := by
  cases o <;> simp [mapNext]

@[simp] theorem mapNext_eq_refused {f : State → State} {o : Host.Outcome State Fault Refusal}
    {r : Refusal} : mapNext f o = .refused r ↔ o = .refused r := by
  cases o <;> simp [mapNext]

/-! ## The issue of a command -/

/-- A CMD write while a command is in flight. -/
theorem issueCommand_inFlight {s : State} {v : Word} (h : s.infl = some v) (w : Word) :
    issueCommand w s = raiseCmdError .cmdBusy w s := by
  simp [issueCommand, h]

/-- A CMD write of an invalid word to an idle block. -/
theorem issueCommand_rejected {s : State} {w : Word} {e : CmdError} (h : s.infl = none)
    (hd : decode w = .error e) : issueCommand w s = raiseCmdError e w s := by
  simp [issueCommand, h, hd]

/-- A CMD write of a valid command to an idle block. -/
theorem issueCommand_accepted {s : State} {w : Word} {i : Instr} (h : s.infl = none)
    (hd : decode w = .ok i) : issueCommand w s = accept w s := by
  simp [issueCommand, h, hd]

/-- What a CMD write can do. -/
theorem issueCommand_cases (w : Word) (s : State) :
    (∃ v, s.infl = some v ∧ issueCommand w s = raiseCmdError .cmdBusy w s) ∨
    (∃ e, s.infl = none ∧ decode w = .error e ∧ issueCommand w s = raiseCmdError e w s) ∨
    (∃ i, s.infl = none ∧ decode w = .ok i ∧ issueCommand w s = accept w s) := by
  cases h : s.infl with
  | some v => exact .inl ⟨v, rfl, issueCommand_inFlight h w⟩
  | none =>
    cases hd : decode w with
    | error e => exact .inr (.inl ⟨e, rfl, rfl, issueCommand_rejected h hd⟩)
    | ok i => exact .inr (.inr ⟨i, rfl, rfl, issueCommand_accepted h hd⟩)

end Sys2Proof.Machine
end

