-- ==== Sys2Proof/Laws/Operands.lean ====
section
/-! SUPPORT. Operand vectors, coefficient by coefficient. -/

namespace Sys2Proof.Machine

theorem vecLen_eq (n : Nat) : vecLen n = 256 * n := rfl

/-- The address of coefficient `k` of the `p`-th slot of a vector. -/
theorem coeffAddr_vec (s : Slot) (p k : Nat) :
    coeffAddr (s.val + p) k = slotAddr s + 4 * (256 * p + k) := by
  simp only [coeffAddr, slotAddr]
  omega

/-- Every position of a vector is a slot of it and an index. -/
theorem forall_vec {q : Nat → Prop} {n : Nat} :
    (∀ j, j < vecLen n → q j) ↔ ∀ p, p < n → ∀ k, k < 256 → q (256 * p + k) := by
  constructor
  · intro h p hp k hk
    exact h _ (by simp only [vecLen_eq]; omega)
  · intro h j hj
    have := h (j / 256) (by simp only [vecLen_eq] at hj; omega) (j % 256) (by omega)
    rwa [show 256 * (j / 256) + j % 256 = j by omega] at this

theorem vec_lt {n p k : Nat} (hp : p < n) (hk : k < 256) : 256 * p + k < vecLen n := by
  simp only [vecLen_eq]
  omega

/-- Every coefficient is an int32. -/
theorem fits32_coeff (σ : State) (s i : Nat) : fits32 (σ.coeff s i) = true := fits32_toInt _

/-- A snapshot is the list of its coefficients. -/
theorem readVec_eq_map (s : Slot) (n : Nat) (σ : State) :
    readVec s n σ
      = (List.range (vecLen n)).map fun j => σ.coeff (s.val + j / 256) (j % 256) := by
  rw [readVec, loadWords_eq_map, List.map_map]
  refine List.map_congr_left fun j _ => ?_
  rw [Function.comp_apply, State.coeff, coeffAddr_vec,
    show 256 * (j / 256) + j % 256 = j by omega]

@[simp] theorem readVec_length (s : Slot) (n : Nat) (σ : State) : (readVec s n σ).length = vecLen n := by
  simp [readVec_eq_map]

/-- A coefficient of a snapshot. -/
theorem readVec_getElem? (s : Slot) {n p k : Nat} (σ : State) (hp : p < n) (hk : k < 256) :
    (readVec s n σ)[256 * p + k]? = some (σ.coeff (s.val + p) k) := by
  rw [readVec_eq_map, List.getElem?_map, List.getElem?_range (vec_lt hp hk), Option.map_some,
    show (256 * p + k) / 256 = p by omega, show (256 * p + k) % 256 = k by omega]

/-- Snapshots of equal coefficients are equal. -/
theorem readVec_congr {s : Slot} {n : Nat} {σ τ : State}
    (h : ∀ p, p < n → ∀ k, k < 256 → τ.coeff (s.val + p) k = σ.coeff (s.val + p) k) :
    readVec s n τ = readVec s n σ := by
  rw [readVec_eq_map, readVec_eq_map]
  refine List.map_congr_left fun j hj => ?_
  have := vecLen_eq n ▸ List.mem_range.mp hj
  exact h _ (by omega) _ (by omega)

/-- A coefficient of the written vector. -/
theorem coeff_writeVec_inside {d : Slot} {vs : List Int} {σ : State} {n p k : Nat} {v : Int}
    (hl : vs.length = vecLen n) (hp : p < n) (hk : k < 256) (hv : vs[256 * p + k]? = some v) :
    (writeVec d vs σ).coeff (d.val + p) k = wrap32 v := by
  have hj : 256 * p + k < (vs.map (BitVec.ofInt 32)).length := by simp [hl, vec_lt hp hk]
  rw [List.getElem?_eq_some_iff] at hv
  obtain ⟨hj', rfl⟩ := hv
  rw [State.coeff, writeVec_P, coeffAddr_vec, wordOr_storeWords_inside hj, List.getElem_map,
    toInt_ofInt32]

/-- Every byte outside the written vector. -/
theorem byte?_writeVec_outside {d : Slot} {vs : List Int} {σ : State} {n x : Nat}
    (hl : vs.length = vecLen n) (hx : x < slotAddr d ∨ slotAddr d + 1024 * n ≤ x) :
    (writeVec d vs σ).P.byte? x = σ.P.byte? x := by
  rw [writeVec_P]
  refine byte?_storeWords_outside ?_
  simp only [List.length_map, hl, vecLen_eq]
  omega

/-- A coefficient of the written vector has been written. -/
theorem written_writeVec_inside {d : Slot} {vs : List Int} {σ : State} {n p k : Nat}
    (hl : vs.length = vecLen n) (hp : p < n) (hk : k < 256) :
    (writeVec d vs σ).written (d.val + p) k = true := by
  have hj : 256 * p + k < (vs.map (BitVec.ofInt 32)).length := by simp [hl, vec_lt hp hk]
  rw [State.written, writeVec_P, coeffAddr_vec, word?_storeWords_inside hj]
  rfl

/-- Every coefficient of a slot outside the written vector. -/
theorem coeff_writeVec_outside {d : Slot} {vs : List Int} {σ : State} {n s k : Nat}
    (hl : vs.length = vecLen n) (hk : k < 256) (hs : s < d.val ∨ d.val + n ≤ s) :
    (writeVec d vs σ).coeff s k = σ.coeff s k := by
  have : (writeVec d vs σ).contents = σ.contents := by simp [State.contents]
  simp only [State.coeff, writeVec_P, this]
  rw [wordOr_storeWords_outside]
  simp only [List.length_map, hl, vecLen_eq, coeffAddr, slotAddr]
  omega

/-- The coefficients depend on the store and the free contents alone. -/
theorem coeff_congr {σ τ : State} (h : σ.P = τ.P) (he : σ.epoch = τ.epoch) (s i : Nat) :
    σ.coeff s i = τ.coeff s i := by
  simp [State.coeff, State.contents, h, he]

/-- A written coefficient does not depend on the free contents. -/
theorem coeff_of_written {σ τ : State} (h : σ.P = τ.P) {s i : Nat} (hw : σ.written s i = true) :
    σ.coeff s i = τ.coeff s i := by
  obtain ⟨w, hw⟩ := Option.isSome_iff_exists.mp hw
  rw [State.coeff, State.coeff, wordOr_of_word? hw, wordOr_of_word? (h ▸ hw)]

/-- The coefficient a host write leaves. -/
theorem coeff_writeCoeff_same (σ : State) (s i : Nat) (w : Word) :
    (writeCoeff s i w σ).coeff s i = w.toInt := by
  have := wordOr_storeWords_inside (f := (writeCoeff s i w σ).contents) (m := σ.P)
    (a := coeffAddr s i) (ws := [w]) (j := 0) (by simp)
  simp only [Nat.mul_zero, Nat.add_zero] at this
  simp [State.coeff, this]

end Sys2Proof.Machine
end

