-- ==== Sys2Proof/Laws/Exec.lean ====
section
/-! SUPPORT. The command frame: what it reads, what it writes and what it leaves alone. Later proofs
cite these lemmas and unfold neither the frame nor a meaning. -/

namespace Sys2Proof.Machine

/-- What a completed command leaves alone: every byte outside its destination, and every field but
the store and OVF, which is sticky. -/
structure Untouched (d : Slot) (n : Nat) (s t : State) : Prop where
  bytes : ∀ x, x < slotAddr d ∨ slotAddr d + 1024 * n ≤ x → t.P.byte? x = s.P.byte? x
  infl : t.infl = s.infl
  status : t.status = { s.status with ovf := t.status.ovf }
  sticky : s.status.ovf = true → t.status.ovf = true
  ie : t.ie = s.ie
  errinfo : t.errinfo = s.errinfo
  host : t.host = s.host
  sched : t.sched = s.sched
  resp : t.resp = s.resp
  epoch : t.epoch = s.epoch

/-- The commit of `n` slots of results leaves the rest alone. -/
theorem commitVec_untouched {d : Slot} {rs : List (Int × Bool)} {n : Nat} (s : State)
    (hl : rs.length = vecLen n) : Untouched d n s (commitVec d rs s) where
  bytes x hx := by
    have := byte?_writeVec_outside (σ := s) (vs := rs.map Prod.fst) (by simpa using hl) hx
    simpa using this
  infl := by simp
  status := by simp
  sticky h := by simp [h]
  ie := by simp
  errinfo := by simp
  host := by simp
  sched := by simp
  resp := by simp
  epoch := by simp

/-- A coefficient of the committed results. -/
theorem coeff_commitVec {d : Slot} {rs : List (Int × Bool)} {n p k : Nat} {r : Int × Bool} (s : State)
    (hl : rs.length = vecLen n) (hp : p < n) (hk : k < 256) (hr : rs[256 * p + k]? = some r) :
    (commitVec d rs s).coeff (d.val + p) k = wrap32 r.1 := by
  have := coeff_writeVec_inside (d := d) (σ := s) (vs := rs.map Prod.fst) (v := r.1)
    (by simpa using hl) hp hk (by simp [hr])
  rwa [coeff_congr (τ := commitVec d rs s) (by simp) (by simp)] at this

/-- The destination of the commit has been written. -/
theorem written_commitVec {d : Slot} {rs : List (Int × Bool)} {n p k : Nat} (s : State)
    (hl : rs.length = vecLen n) (hp : p < n) (hk : k < 256) :
    (commitVec d rs s).written (d.val + p) k = true := by
  have := written_writeVec_inside (d := d) (σ := s) (vs := rs.map Prod.fst) (by simpa using hl) hp hk
  simpa [State.written] using this

/-- An overflow among the results, by slot and index. -/
theorem any_ovf_iff {rs : List (Int × Bool)} {n : Nat} {g : Nat → Nat → Int × Bool}
    (hl : rs.length = vecLen n)
    (hg : ∀ p, p < n → ∀ k, k < 256 → rs[256 * p + k]? = some (g p k)) :
    rs.any Prod.snd = true ↔ ∃ p, p < n ∧ ∃ k, k < 256 ∧ (g p k).2 = true := by
  rw [List.any_eq_true]
  constructor
  · rintro ⟨r, hr, ho⟩
    obtain ⟨j, hj, rfl⟩ := List.getElem_of_mem hr
    rw [hl, vecLen_eq] at hj
    refine ⟨j / 256, by omega, j % 256, by omega, ?_⟩
    have := hg (j / 256) (by omega) (j % 256) (by omega)
    rw [show 256 * (j / 256) + j % 256 = j by omega,
      List.getElem?_eq_getElem (by rw [hl, vecLen_eq]; omega)] at this
    rw [← Option.some.inj this]
    exact ho
  · rintro ⟨p, hp, k, hk, ho⟩
    exact ⟨g p k, List.mem_of_getElem? (hg p hp k hk), ho⟩

/-- What running a command ends in: each destination coefficient holds the value
of `g`, wrapped, OVF is set if some value of `g` indicates an overflow, and the rest is untouched. -/
structure Computes (d : Slot) (n : Nat) (g : Nat → Nat → Int × Bool) (s t : State) : Prop where
  result : ∀ p, p < n → ∀ k, k < 256 → t.coeff (d.val + p) k = wrap32 (g p k).1
  written : ∀ p, p < n → ∀ k, k < 256 → t.written (d.val + p) k = true
  ovf : t.status.ovf = true ↔
    s.status.ovf = true ∨ ∃ p, p < n ∧ ∃ k, k < 256 ∧ (g p k).2 = true
  untouched : Untouched d n s t

theorem commitVec_computes {d : Slot} {rs : List (Int × Bool)} {n : Nat} {g : Nat → Nat → Int × Bool}
    (s : State) (hl : rs.length = vecLen n)
    (hg : ∀ p, p < n → ∀ k, k < 256 → rs[256 * p + k]? = some (g p k)) :
    Computes d n g s (commitVec d rs s) where
  result p hp k hk := coeff_commitVec s hl hp hk (hg p hp k hk)
  written p hp k hk := written_commitVec s hl hp hk
  ovf := by simp [← any_ovf_iff hl hg]
  untouched := commitVec_untouched s hl

/-- A unary command. -/
theorem execUnary_computes (f : Int → Int × Bool) (d a : Slot) (n : Nat) (s : State) :
    ∃ t, execUnary f d a n s = .next t ∧
      Computes d n (fun p k => f (s.coeff (a.val + p) k)) s t :=
  ⟨_, rfl, commitVec_computes s (by simp) fun p hp k hk => by
    rw [List.getElem?_map, readVec_getElem? a s hp hk, Option.map_some]⟩

/-- A binary command. -/
theorem execBinary_computes (f : Int → Int → Int × Bool) (d a b : Slot) (n : Nat) (s : State) :
    ∃ t, execBinary f d a b n s = .next t ∧
      Computes d n (fun p k => f (s.coeff (a.val + p) k) (s.coeff (b.val + p) k)) s t :=
  ⟨_, rfl, commitVec_computes s (by simp) fun p hp k hk => by
    rw [List.getElem?_zipWith, readVec_getElem? a s hp hk, readVec_getElem? b s hp hk]⟩

/-- The state has the source coefficients of the command that `s` has. -/
abbrev SameSources (i : Instr) (s s' : State) : Prop :=
  ∀ a ∈ i.sources, ∀ p, p < i.count → ∀ k, k < 256 →
    s'.coeff (a.val + p) k = s.coeff (a.val + p) k

/-- What the execution of any command does: it commits one vector of results, computed from its source
coefficients, to its destination. -/
theorem exec_commits (i : Instr) (s : State) :
    ∃ rs, rs.length = vecLen i.count ∧
      ∀ s' : State, SameSources i s s' → exec i s' = .next (commitVec i.dst rs s') := by
  have unary (f : Int → Int × Bool) (d a : Slot) (n : Nat) (s' : State)
      (h : ∀ p, p < n → ∀ k, k < 256 → s'.coeff (a.val + p) k = s.coeff (a.val + p) k) :
      execUnary f d a n s' = .next (commitVec d ((readVec a n s).map f) s') := by
    rw [execUnary, readVec_congr h]
  have binary (f : Int → Int → Int × Bool) (d a b : Slot) (n : Nat) (s' : State)
      (ha : ∀ p, p < n → ∀ k, k < 256 → s'.coeff (a.val + p) k = s.coeff (a.val + p) k)
      (hb : ∀ p, p < n → ∀ k, k < 256 → s'.coeff (b.val + p) k = s.coeff (b.val + p) k) :
      execBinary f d a b n s'
        = .next (commitVec d (List.zipWith f (readVec a n s) (readVec b n s)) s') := by
    rw [execBinary, readVec_congr ha, readVec_congr hb]
  cases i with
  | add d a b n =>
    exact ⟨_, by simp [Instr.count], fun s' h =>
      binary add32 d a b n s' (h a (by simp [Instr.sources, Instr.srcA]))
        (h b (by simp [Instr.sources, Instr.srcB]))⟩
  | sub d a b n =>
    exact ⟨_, by simp [Instr.count], fun s' h =>
      binary sub32 d a b n s' (h a (by simp [Instr.sources, Instr.srcA]))
        (h b (by simp [Instr.sources, Instr.srcB]))⟩
  | reduce d a n =>
    exact ⟨_, by simp [Instr.count], fun s' h =>
      unary (noOvf reduce32) d a n s' (h a (by simp [Instr.sources, Instr.srcA]))⟩
  | caddq d a n =>
    exact ⟨_, by simp [Instr.count], fun s' h =>
      unary (noOvf caddq) d a n s' (h a (by simp [Instr.sources, Instr.srcA]))⟩
  | shiftl d a n =>
    exact ⟨_, by simp [Instr.count], fun s' h =>
      unary shl13 d a n s' (h a (by simp [Instr.sources, Instr.srcA]))⟩

/-- Every command reaches a next state, which is a commit of its destination. -/
theorem exec_eq_commit (i : Instr) (s : State) :
    ∃ rs, rs.length = vecLen i.count ∧ exec i s = .next (commitVec i.dst rs s) := by
  obtain ⟨rs, hl, h⟩ := exec_commits i s
  exact ⟨rs, hl, h s fun _ _ _ _ _ _ => rfl⟩

/-- A next state of a command is a commit of its destination. -/
theorem exec_eq_next {i : Instr} {s t : State} (h : exec i s = .next t) :
    ∃ rs, rs.length = vecLen i.count ∧ t = commitVec i.dst rs s := by
  obtain ⟨rs, hl, hn⟩ := exec_eq_commit i s
  rw [hn] at h
  cases h
  exact ⟨rs, hl, rfl⟩

/-- The results a command commits depend on the store and the free contents alone. -/
theorem exec_commits_congr (i : Instr) (s : State) :
    ∃ rs, rs.length = vecLen i.count ∧ ∀ s' : State, s'.P = s.P → s'.epoch = s.epoch →
      exec i s' = .next (commitVec i.dst rs s') := by
  obtain ⟨rs, hl, h⟩ := exec_commits i s
  exact ⟨rs, hl, fun s' hP he => h s' fun a _ p _ k _ => coeff_congr hP he _ _⟩

/-- Readiness depends on the store alone. -/
theorem ready_congr {i : Instr} {s s' : State} (h : s'.P = s.P) : Ready i s' ↔ Ready i s := by
  simp only [Ready, Readable, State.written, h]

/-- A ready command reads the same whatever the unwritten coefficients hold. -/
theorem sameSources_of_ready {i : Instr} {s s' : State} (h : s'.P = s.P) (hr : Ready i s) :
    SameSources i s s' :=
  fun a ha p hp k hk => (coeff_of_written h.symm (hr a ha p hp k hk)).symm

/-- No command is refused. -/
theorem exec_ne_refused (i : Instr) (s : State) (r : Refusal) : exec i s ≠ .refused r := by
  obtain ⟨rs, -, h⟩ := exec_eq_commit i s
  simp [h]

end Sys2Proof.Machine
end

