-- ==== Sys2Proof/Laws/PerInstr.lean ====
section
/-! SUPPORT. The statements about every instruction as syntax, one lemma for each constructor. -/

namespace Sys2Proof.Laws.FieldsReadBack

/-- The OP field of the encoded command names its row, the operand fields hold its operands and the
reserved bits are 0 (30_encoding.md R81, R82, R90). -/
def Statement (i : Instr) : Prop :=
  i.countOk = true → FieldsOf i (encode i) ∧ instrOf (encode i) = some i ∧ reservedOk (encode i) = true

theorem add (d a b : Slot) (n : Nat) : Statement (.add d a b n) := by
  intro h
  have f := encode_fields h
  have hb : slotField (encode (.add d a b n)) 24 = b := Fin.ext f.srcB
  exact ⟨f, instrOf_eq_some_iff.mpr (.inl ⟨f.op, by rw [f.dst, f.srcA, f.count, hb]; rfl⟩),
    by simp [reservedOk, isBinaryOp, f.rsv0, f.rsv1, f.rsv2, f.op, Instr.op]⟩

theorem sub (d a b : Slot) (n : Nat) : Statement (.sub d a b n) := by
  intro h
  have f := encode_fields h
  have hb : slotField (encode (.sub d a b n)) 24 = b := Fin.ext f.srcB
  exact ⟨f, instrOf_eq_some_iff.mpr (.inr (.inl ⟨f.op, by rw [f.dst, f.srcA, f.count, hb]; rfl⟩)),
    by simp [reservedOk, isBinaryOp, f.rsv0, f.rsv1, f.rsv2, f.op, Instr.op]⟩

theorem reduce (d a : Slot) (n : Nat) : Statement (.reduce d a n) := by
  intro h
  have f := encode_fields h
  exact ⟨f, instrOf_eq_some_iff.mpr
      (.inr (.inr (.inl ⟨f.op, by rw [f.dst, f.srcA, f.count]; rfl⟩))),
    by simp [reservedOk, f.rsv0, f.rsv1, f.rsv2, f.srcB, Instr.srcBField, Instr.srcB]⟩

theorem caddq (d a : Slot) (n : Nat) : Statement (.caddq d a n) := by
  intro h
  have f := encode_fields h
  exact ⟨f, instrOf_eq_some_iff.mpr
      (.inr (.inr (.inr (.inl ⟨f.op, by rw [f.dst, f.srcA, f.count]; rfl⟩)))),
    by simp [reservedOk, f.rsv0, f.rsv1, f.rsv2, f.srcB, Instr.srcBField, Instr.srcB]⟩

theorem shiftl (d a : Slot) (n : Nat) : Statement (.shiftl d a n) := by
  intro h
  have f := encode_fields h
  exact ⟨f, instrOf_eq_some_iff.mpr
      (.inr (.inr (.inr (.inr ⟨f.op, by rw [f.dst, f.srcA, f.count]; rfl⟩)))),
    by simp [reservedOk, f.rsv0, f.rsv1, f.rsv2, f.srcB, Instr.srcBField, Instr.srcB]⟩

end Sys2Proof.Laws.FieldsReadBack
end

