-- ==== Sys2Proof/Laws/Step.lean ====
section
/-! SUPPORT. What one step can do, said once: every invariant and every whole-machine rule is a case
analysis over `StepTo`. -/

namespace Sys2Proof.Machine

/-! ## The address map -/

/-- The map, region by region, for every offset. -/
theorem region_cases (a : Addr) :
    (a = 0x0000 ∧ region a = .constq) ∨ (a = 0x0004 ∧ region a = .status) ∨
    (a = 0x0008 ∧ region a = .ctrl) ∨ (a = 0x000C ∧ region a = .cmd) ∨
    (a = 0x0010 ∧ region a = .errinfo) ∨ (a = 0x0014 ∧ region a = .info) ∨
    (0x8000 ≤ a.toNat ∧ region a = .window (a.toNat / 1024 % 32) (a.toNat / 4 % 256)) ∨
    (a.toNat < 0x8000 ∧ region a = .unmapped) := by
  unfold region
  split
  · exact .inl ⟨‹_›, rfl⟩
  split
  · exact .inr (.inl ⟨‹_›, rfl⟩)
  split
  · exact .inr (.inr (.inl ⟨‹_›, rfl⟩))
  split
  · exact .inr (.inr (.inr (.inl ⟨‹_›, rfl⟩)))
  split
  · exact .inr (.inr (.inr (.inr (.inl ⟨‹_›, rfl⟩))))
  split
  · exact .inr (.inr (.inr (.inr (.inr (.inl ⟨‹_›, rfl⟩)))))
  split
  · exact .inr (.inr (.inr (.inr (.inr (.inr (.inl ⟨‹_›, rfl⟩))))))
  · exact .inr (.inr (.inr (.inr (.inr (.inr (.inr ⟨by omega, rfl⟩))))))

/-- The slot and the index of a window offset lie in their ranges, and the offset lies in the window. -/
theorem region_window {a : Addr} {sl i : Nat} (h : region a = .window sl i) :
    0x8000 ≤ a.toNat ∧ sl < 32 ∧ i < 256 ∧ (a.toNat % 4 = 0 → coeffAddr sl i = a.toNat) := by
  have ha := a.isLt
  rcases region_cases a with ⟨-, h'⟩ | ⟨-, h'⟩ | ⟨-, h'⟩ | ⟨-, h'⟩ | ⟨-, h'⟩ | ⟨-, h'⟩ | ⟨hw, h'⟩ |
    ⟨-, h'⟩ <;> rw [h] at h' <;> try cases h'
  refine ⟨hw, Nat.mod_lt _ (by omega), Nat.mod_lt _ (by omega), fun h4 => ?_⟩
  simp only [coeffAddr]
  omega

/-- The offset of a coefficient names its slot and index. -/
theorem region_coeffAddr {s i : Nat} (hs : s < 32) (hi : i < 256) :
    region (BitVec.ofNat 16 (coeffAddr s i)) = .window s i := by
  have hn : (BitVec.ofNat 16 (coeffAddr s i)).toNat = coeffAddr s i := by
    simp only [BitVec.toNat_ofNat, coeffAddr]; omega
  rcases region_cases (BitVec.ofNat 16 (coeffAddr s i)) with ⟨h, -⟩ | ⟨h, -⟩ | ⟨h, -⟩ | ⟨h, -⟩ | ⟨h, -⟩ |
    ⟨h, -⟩ | ⟨-, h⟩ | ⟨h, -⟩
  all_goals try (exfalso; rw [h] at hn; simp [coeffAddr] at hn; omega)
  · rw [h, hn]
    congr 1 <;> simp only [coeffAddr] <;> omega
  · exfalso; rw [hn] at h; simp only [coeffAddr] at h; omega

/-! ## One step -/

/-- The next states of a step from `s`. A turn is used up first (`popSched`), and a transaction that
is performed is used up before it acts (`popHost`). -/
inductive StepTo (s : State) : State → Prop
  /-- Reset has the turn. -/
  | reset (h : s.sched.head? = some .reset) : StepTo s (resetBlock (popSched s))
  /-- The agent whose turn it is has no enabled step: an idle engine, a host with nothing to do, or a
  host whose window transaction is held. -/
  | idle : StepTo s (popSched s)
  /-- The command in flight completes. -/
  | complete (w : Word) (i : Instr) (u : State) (hw : s.infl = some w) (hi : decode w = .ok i)
      (turn : EngineTurn s) (hu : exec i (popSched s) = .next u) : StepTo s (retire u)
  /-- The host polls STATUS. -/
  | poll (ops : List HostOp) (h : s.host = .wait :: ops) : StepTo s (waitTurn (popSched s))
  /-- A read, or a write that is ignored. -/
  | answer (t : Txn) (ops : List HostOp) (r : Response) (h : s.host = .txn t :: ops) :
      StepTo s (respond r (popHost (popSched s)))
  /-- A write of `w` to CTRL. -/
  | ctrl (turn : HostTurn s) (t : Txn) (ops : List HostOp) (w : Word) (h : s.host = .txn t :: ops) (ok : t.ok = true)
      (op : t.op = .write w) (at_ : t.addr = 0x0008) :
      StepTo s (respond .okay (ctrlWrite w (popHost (popSched s))))
  /-- A write of `w` to CMD. -/
  | cmd (turn : HostTurn s) (t : Txn) (ops : List HostOp) (w : Word) (h : s.host = .txn t :: ops) (ok : t.ok = true)
      (op : t.op = .write w) (at_ : t.addr = 0x000C) :
      StepTo s (respond .okay (issueCommand w (popHost (popSched s))))
  /-- A window write of `w` to an idle block. -/
  | window (turn : HostTurn s) (t : Txn) (ops : List HostOp) (w : Word) (k i : Nat) (h : s.host = .txn t :: ops)
      (ok : t.ok = true) (op : t.op = .write w) (hk : k < 32) (hi : i < 256)
      (at_ : t.addr.toNat = coeffAddr k i) (free : s.infl = none) :
      StepTo s (respond .okay (writeCoeff k i w (popHost (popSched s))))

/-- A transaction that is a supported access to a word-aligned offset. -/
theorem Txn.ok_iff {t : Txn} : t.ok = true ↔ t.addr.toNat % 4 = 0 ∧ t.width = 4 ∧ t.lanes = 0xF := by
  simp [Txn.ok, and_assoc]

theorem hostTurn_cases {s t : State} (turn : HostTurn s) (h : hostTurn (popSched s) = .next t) : StepTo s t := by
  unfold hostTurn at h
  split at h
  · cases h; exact .idle
  · next ops ho => cases h; exact .poll ops ho
  · next x ops ho =>
    split at h
    · cases h; exact .idle
    next hheld =>
    unfold perform at h
    split at h
    case isFalse => cases h
    next hok =>
    split at h
    · unfold memRead at h
      split at h
      all_goals try (cases h; exact .answer x ops _ ho)
      cases h
    · next w hop =>
      unfold memWrite at h
      rcases region_cases x.addr with ⟨ha, hr⟩ | ⟨ha, hr⟩ | ⟨ha, hr⟩ | ⟨ha, hr⟩ | ⟨ha, hr⟩ |
        ⟨ha, hr⟩ | ⟨ha, hr⟩ | ⟨ha, hr⟩ <;> rw [hr] at h
      · cases h; exact .answer x ops _ ho
      · cases h; exact .answer x ops _ ho
      · cases h; exact .ctrl turn x ops w ho hok hop ha
      · cases h; exact .cmd turn x ops w ho hok hop ha
      · cases h; exact .answer x ops _ ho
      · cases h; exact .answer x ops _ ho
      · cases h
        obtain ⟨-, hk, hi, hadr⟩ := region_window hr
        refine .window turn x ops w _ _ ho hok hop hk hi (hadr (Txn.ok_iff.mp hok).1).symm ?_
        have hin : x.inWindow = true := by simpa [Txn.inWindow] using ha
        simpa [held, hok, hin] using hheld
      · cases h

theorem engineTurn_cases {s t : State} (turn : EngineTurn s) (h : engineTurn (popSched s) = .next t) : StepTo s t := by
  unfold engineTurn at h
  split at h
  · cases h; exact .idle
  · next w hw =>
    split at h
    · cases h
    · next i hi =>
      obtain ⟨u, hu, rfl⟩ := mapNext_eq_next.mp h
      exact .complete w i u (by simpa using hw) hi turn hu

theorem popSched_nil {s : State} (h : s.sched = []) : popSched s = s := by
  cases s
  simp only at h
  subst h
  rfl

/-- Every next state of a step is one of the cases of `StepTo`. -/
theorem step_cases {s t : State} (h : step s = .next t) : StepTo s t := by
  unfold step at h
  split at h
  · next hs =>
    rw [← popSched_nil hs] at h
    unfold restTurn at h
    split at h
    next hb =>
      exact engineTurn_cases (.inr ⟨hs, by simpa [popSched_nil hs, Option.isSome_iff_ne_none] using hb⟩)
        (by rwa [popSched_nil hs] at h ⊢)
    next hb =>
      exact hostTurn_cases (.inr ⟨hs, by simpa [popSched_nil hs] using hb⟩)
        (by rwa [popSched_nil hs] at h ⊢)
  · next g rest hs =>
    cases g with
    | host => exact hostTurn_cases (.inl (by simp [hs])) h
    | engine => exact engineTurn_cases (.inl (by simp [hs])) h
    | reset => cases h; exact .reset (by simp [hs])

/-! ## The turns by name -/

theorem step_host {s : State} {rest : List Agent} (h : s.sched = .host :: rest) :
    step s = hostTurn (popSched s) := by
  simp [step, h, agentTurn]

theorem step_engine {s : State} {rest : List Agent} (h : s.sched = .engine :: rest) :
    step s = engineTurn (popSched s) := by
  simp [step, h, agentTurn]

theorem step_reset {s : State} {rest : List Agent} (h : s.sched = .reset :: rest) :
    step s = .next (resetBlock (popSched s)) := by
  simp [step, h, agentTurn]

theorem step_rest {s : State} (h : s.sched = []) : step s = restTurn s := by
  simp [step, h]

/-- A host turn performs its transaction unless it is held. -/
theorem hostTurn_txn {s : State} {t : Txn} {ops : List HostOp} (h : s.host = .txn t :: ops) :
    hostTurn s = if held t s then .next s else perform t (popHost s) := by
  simp [hostTurn, h]

/-- A register transaction is never held. -/
theorem held_register {t : Txn} {s : State} (h : t.addr.toNat < 0x8000) : held t s = false := by
  simp only [held, Txn.inWindow, Bool.and_eq_false_iff, decide_eq_false_iff_not]
  omega

@[simp] theorem fullWord_ok {op : TxnOp} {a : Addr} : (fullWord op a).ok = decide (a.toNat % 4 = 0) := by
  simp only [Txn.ok, fullWord, beq_self_eq_true, Bool.and_true]
  rfl

@[simp] theorem fullWord_op {op : TxnOp} {a : Addr} : (fullWord op a).op = op := rfl

@[simp] theorem fullWord_addr {op : TxnOp} {a : Addr} : (fullWord op a).addr = a := rfl

/-- An idle block holds nothing. -/
theorem held_idle {t : Txn} {s : State} (h : s.infl = none) : held t s = false := by
  simp [held, h]

/-- A step of the host's turn performs a transaction that is not held. -/
theorem step_performs {s : State} {t : Txn} {rest : List Agent} {ops : List HostOp}
    (h : s.sched = .host :: rest) (ho : s.host = .txn t :: ops) (hh : held t s = false) :
    step s = perform t { s with host := ops, sched := rest } := by
  have hp : held t (popSched s) = false := by simpa [held] using hh
  rw [step_host h, hostTurn_txn (ops := ops) (by simpa using ho), hp]
  simp [popSched, popHost, h, ho]

/-- A step that writes a register. -/
theorem step_writes_register {s : State} {a : Addr} {w : Word} {rest : List Agent} {ops : List HostOp}
    (h : s.sched = .host :: rest) (ho : s.host = wr a w :: ops) (ha : a.toNat < 0x8000)
    (h4 : a.toNat % 4 = 0) : step s = memWrite a w { s with host := ops, sched := rest } := by
  rw [step_performs h (by simpa [wr] using ho) (held_register (by simpa using ha))]
  simp [perform, h4]

/-- A step that reads a register. -/
theorem step_reads_register {s : State} {a : Addr} {rest : List Agent} {ops : List HostOp}
    (h : s.sched = .host :: rest) (ho : s.host = rd a :: ops) (ha : a.toNat < 0x8000)
    (h4 : a.toNat % 4 = 0) : step s = memRead a { s with host := ops, sched := rest } := by
  rw [step_performs h (by simpa [rd] using ho) (held_register (by simpa using ha))]
  simp [perform, h4]

/-- A step that writes CMD. -/
theorem step_writes_cmd {s : State} {w : Word} {rest : List Agent} {ops : List HostOp}
    (h : s.sched = .host :: rest) (ho : s.host = wr 0x000C w :: ops) :
    step s = .next (respond .okay (issueCommand w { s with host := ops, sched := rest })) := by
  rw [step_writes_register h ho (by decide) (by decide)]
  rfl

/-- A step that writes CTRL. -/
theorem step_writes_ctrl {s : State} {w : Word} {rest : List Agent} {ops : List HostOp}
    (h : s.sched = .host :: rest) (ho : s.host = wr 0x0008 w :: ops) :
    step s = .next (respond .okay (ctrlWrite w { s with host := ops, sched := rest })) := by
  rw [step_writes_register h ho (by decide) (by decide)]
  rfl

/-- The offset of a coefficient as a 16-bit offset. -/
theorem toNat_coeffAddr {k i : Nat} (hk : k < 32) (hi : i < 256) :
    (BitVec.ofNat 16 (coeffAddr k i)).toNat = coeffAddr k i := by
  simp only [BitVec.toNat_ofNat, coeffAddr]
  omega

theorem coeffAddr_aligned (k i : Nat) : coeffAddr k i % 4 = 0 := by
  simp only [coeffAddr]
  omega

/-- A step that writes a coefficient of an idle block. -/
theorem step_writes_coeff {s : State} {k i : Nat} {w : Word} {rest : List Agent} {ops : List HostOp}
    (hk : k < 32) (hi : i < 256) (hf : s.infl = none) (h : s.sched = .host :: rest)
    (ho : s.host = wr (BitVec.ofNat 16 (coeffAddr k i)) w :: ops) :
    step s = .next (respond .okay (writeCoeff k i w { s with host := ops, sched := rest })) := by
  rw [step_performs h (by simpa [wr] using ho) (held_idle hf)]
  simp only [perform, fullWord_ok, toNat_coeffAddr hk hi, coeffAddr_aligned, decide_true, if_true,
    fullWord_op, fullWord_addr, memWrite, region_coeffAddr hk hi]

/-- A step that reads a coefficient of an idle block. -/
theorem step_reads_coeff {s : State} {k i : Nat} {rest : List Agent} {ops : List HostOp}
    (hk : k < 32) (hi : i < 256) (hf : s.infl = none) (h : s.sched = .host :: rest)
    (ho : s.host = rd (BitVec.ofNat 16 (coeffAddr k i)) :: ops) :
    step s = .next (respond (.data (s.P.wordOr s.contents (coeffAddr k i)))
      { s with host := ops, sched := rest }) := by
  rw [step_performs h (by simpa [rd] using ho) (held_idle hf)]
  simp only [perform, fullWord_ok, toNat_coeffAddr hk hi, coeffAddr_aligned, decide_true, if_true,
    fullWord_op, fullWord_addr, memRead, region_coeffAddr hk hi]
  rfl

/-- A step of the engine's turn with a valid command in flight. -/
theorem step_completes {s : State} {w : Word} {i : Instr} {rest : List Agent}
    (h : s.sched = .engine :: rest) (hw : s.infl = some w) (hi : decode w = .ok i) :
    step s = mapNext retire (exec i (popSched s)) := by
  rw [step_engine h]
  simp [engineTurn, hw, hi]

/-- A run of one more step. -/
theorem run_succ {k : Nat} {s t : State} (h : step s = .next t) :
    Host.Core.run Sys2Proof.core (k + 1) s = Host.Core.run Sys2Proof.core k t := by
  have h' : Sys2Proof.core.step s = .next t := h
  simp [Host.Core.run, h']

end Sys2Proof.Machine
end

