-- ==== Sys2Proof/Tests/Slice0.lean ====
section
/-! SUPPORT. Tests with expected results from the spec's vectors, and for each statement with
hypotheses a state and operands that meet them. -/

namespace Sys2Proof.Tests

open Sys2Proof.Machine

/-! ## Helpers -/

/-- 256 copies of `f k` for each slot `k`. -/
@[irreducible] def coeffs (f : Nat → Int) : List Int := (List.range 8192).map fun j => f (j / 256)

theorem coeffs_length (f : Nat → Int) : (coeffs f).length = vecLen 32 := by
  unfold coeffs
  rw [List.length_map, List.length_range, vecLen_eq]

theorem coeffs_get (f : Nat → Int) {k i : Nat} (hk : k < 32) (hi : i < 256) :
    (coeffs f)[256 * k + i]? = some (f k) := by
  unfold coeffs
  rw [List.getElem?_map, List.getElem?_range (by omega)]
  simp [show (256 * k + i) / 256 = k by omega]

/-- A state in which every coefficient of slot `k` holds `f k`. -/
def filled (f : Nat → Int) : State := writeVec 0 (coeffs f) State.reset

/-- The next state of an outcome, for tests of one step. -/
def next? : Host.Outcome State Fault Refusal → Option State
  | .next s => some s
  | _ => none

/-- The fault of an outcome. -/
def fault? : Host.Outcome State Fault Refusal → Option Fault
  | .fault e => some e
  | _ => none

/-- One host transaction on a state, the host having the turn. -/
def host (s : State) (o : HostOp) : Host.Outcome State Fault Refusal :=
  step { s with host := [o], sched := [.host] }

/-- STATUS, ERRINFO and the response after a step. -/
def seen (o : Host.Outcome State Fault Refusal) : Option (Word × Word × Option Response) :=
  (next? o).map fun s => (s.status.word, s.errinfo, s.resp)

theorem coeff_filled (f : Nat → Int) {k i : Nat} (hk : k < 32) (hi : i < 256) :
    (filled f).coeff k i = wrap32 (f k) := by
  have h := coeff_writeVec_inside (d := 0) (σ := State.reset) (n := 32) (p := k) (k := i) (v := f k)
    (vs := coeffs f) (coeffs_length f) hk hi (coeffs_get f hk hi)
  simpa [filled] using h

theorem written_filled (f : Nat → Int) {k i : Nat} (hk : k < 32) (hi : i < 256) :
    (filled f).written k i = true := by
  have h := written_writeVec_inside (d := 0) (σ := State.reset) (n := 32) (p := k) (k := i)
    (vs := coeffs f) (coeffs_length f) hk hi
  simpa [filled] using h

/-! ## Ill-formed commands, one for each check -/

theorem test_wf_accepts : (Instr.add 24 0 24 8).wf = true ∧ (Instr.reduce 31 31 1).wf = true := by
  decide

theorem test_wf_refuses_count : (Instr.add 0 0 0 0).countOk = false ∧ (Instr.caddq 0 0 9).countOk = false ∧
    (Instr.add 0 0 0 0).wf = false ∧ (Instr.caddq 0 0 9).wf = false := by decide

theorem test_wf_refuses_range : (Instr.reduce 30 30 4).rangeOk = false ∧
    (Instr.add 0 25 0 8).rangeOk = false ∧ (Instr.sub 0 0 25 8).rangeOk = false ∧
    (Instr.reduce 30 30 4).wf = false := by decide

theorem test_wf_refuses_overlap : (Instr.add 1 0 2 2).overlapOk = false ∧
    (Instr.sub 0 0 1 8).overlapOk = false ∧ (Instr.shiftl 1 0 2).wf = false := by decide

/-! ## Words written out from the field picture of 30_encoding.md R81 -/

/-- 001 00001 000 00000 000 00010 0000 0001: VCM1 0, SRCB 1, SRCA 0, DST 2, OP 1 (with VCM1 000). -/
theorem test_decode_add : decode 0b00000001000000000000001000000001 = .ok (.add 2 0 1 1) := by decide

/-- VCM1 100, SRCB 10000, SRCA 00000, DST 01000, OP 0010. -/
theorem test_decode_sub : decode 0b10010000000000000000100000000010 = .ok (.sub 8 0 16 5) := by decide

/-- VCM1 011, SRCA 00101, DST 00101, OP 0011. -/
theorem test_decode_reduce : decode 0b01100000000001010000010100000011 = .ok (.reduce 5 5 4) := by decide

/-- VCM1 000, SRCA 00011, DST 00011, OP 0100. -/
theorem test_decode_caddq : decode 0b00000000000000110000001100000100 = .ok (.caddq 3 3 1) := by decide

/-- VCM1 001, SRCA 00000, DST 00100, OP 0101. -/
theorem test_decode_shiftl : decode 0b00100000000000000000010000000101 = .ok (.shiftl 4 0 2) := by decide

/-- 95_test_vectors.md 3.2, V-W1 to V-W7 and V-W9. -/
theorem test_decode_rejects : decode 0x00000000 = .error .badOpcode ∧
    decode 0x00000007 = .error .badOpcode ∧ decode 0x000000F7 = .error .badOpcode ∧
    decode 0x00000011 = .error .rsvdNonzero ∧ decode 0x01000003 = .error .rsvdNonzero ∧
    decode 0x601E1E03 = .error .slotRange ∧ decode 0x22000101 = .error .overlap ∧
    decode 0xE1000001 = .error .overlap := by decide

/-- 95_test_vectors.md 3.2, V-W8, V-W10 to V-W12. -/
theorem test_decode_accepts : decode 0x01000201 = .ok (.add 2 0 1 1) ∧
    decode 0xE0000001 = .ok (.add 0 0 0 8) ∧ decode 0xE8001001 = .ok (.add 16 0 8 8) ∧
    decode 0xF8001801 = .ok (.add 24 0 24 8) := by decide

theorem test_table_word : decodeTableWord 32 0x60050503 = some (.reduce 5 5 4) ∧
    decodeTableWord 33 1 = none := by decide

/-- 95_test_vectors.md 3.1. -/
theorem test_assembler : assembleLine "add" [.slot 16, .slot 0, .slot 8, .count 8] = some 0xE8001001 ∧
    assembleLine "sub" [.slot 7, .slot 7, .slot 7] = some 0x07070702 ∧
    assembleLine "reduce" [.slot 4, .slot 4, .count 2] = some 0x20040403 ∧
    assembleLine "caddq" [.slot 32, .slot 0] = none ∧
    assembleLine "shiftl" [.slot 0, .slot 0, .count 9] = none := by decide

/-- 95_test_vectors.md P5: `mov p3, p0` and `neg p6, p3`. -/
theorem test_expansions :
    Pseudo.expand (.mov 3 0 1) = some [wr 0x000C 0x03030302, .wait, wr 0x000C 0x03000301] ∧
    Pseudo.expand (.neg 6 3 1) = some [wr 0x000C 0x06060602, .wait, wr 0x000C 0x03060602] ∧
    Pseudo.expand (.mov 3 3 1) = none := by decide

/-! ## Scalar vectors of 95_test_vectors.md section 2 -/

/-- V-R1 to V-R19. -/
theorem test_reduce32 : [0, 1, -1, 8380417, -8380417, 8380416, 4194303, 4194304, -4194304, -4194305,
      2143289343, -2143289344, 2143289344, 2147483647, -2147483648, 12345678, -12345678, 16760834,
      -2143289345].map reduce32
    = [0, 1, -1, 0, 0, -1, 4194303, -4186113, -4194304, 4186112, 6283008, -6283009, -2097408, 2096895,
      -2096896, 3965261, -3965261, 0, 2097407] := by decide

/-- V-C1 to V-C9. -/
theorem test_caddq : [-1, 0, 8380416, -8380417, 8380417, -8380418, -2147483648, 2147483647,
      -6283009].map caddq
    = [8380416, 0, 8380416, 0, 8380417, -1, -2139103231, 2147483647, 2097408] := by decide

/-- V-A3, V-A4, V-A5, V-A7. -/
theorem test_add32 : add32 2147483647 1 = (-2147483648, true) ∧
    add32 (-2147483648) (-1) = (2147483647, true) ∧ add32 (-5) 3 = (-2, false) ∧
    add32 (-2147483648) (-2147483648) = (0, true) := by decide

/-- V-B2, V-B3, V-B6, V-B7. -/
theorem test_sub32 : sub32 (-2147483648) 1 = (2147483647, true) ∧
    sub32 0 (-2147483648) = (-2147483648, true) ∧ sub32 (-1) 2147483647 = (-2147483648, false) ∧
    sub32 3 8380417 = (-8380414, false) := by decide

/-- V-S5 to V-S10. -/
theorem test_shl13 : [262143, 262144, -262144, -262145, 2147483647, -2147483648].map shl13
    = [(2147475456, false), (-2147483648, true), (-2147483648, false), (2147475456, true),
      (-8192, true), (0, true)] := by decide

/-! ## Bus vectors of 95_test_vectors.md 3.3, from the reset state -/

/-- V-M1 to V-M6. -/
theorem test_registers : seen (host State.reset (rd 0x0000)) = some (0, 0, some (.data 0x007FE001)) ∧
    seen (host State.reset (rd 0x0014)) = some (0, 0, some (.data 0x0D200100)) ∧
    seen (host State.reset (rd 0x000C)) = some (0, 0, some (.data 0)) ∧
    seen (host State.reset (wr 0x0004 0xFFFFFFFF)) = some (0, 0, some .okay) ∧
    (next? (host State.reset (wr 0x0008 0xFFFFFFFF))).map State.ctrlWord = some 1 := by decide

/-- V-M7 to V-M10. -/
theorem test_bus_errors : fault? (host State.reset (rd 0x0002)) = some (.busError 0x0002) ∧
    fault? (host State.reset (.txn { op := .read, addr := 0x8000, width := 2, lanes := 0x3 }))
      = some (.busError 0x8000) ∧
    fault? (host State.reset (rd 0x0018)) = some (.busError 0x0018) ∧
    fault? (host State.reset (rd 0x7FFC)) = some (.busError 0x7FFC) := by decide

/-- V-M11, V-M12, and the byte order of R55. -/
theorem test_window : (next? (host State.reset (wr 0x8404 0xFFFFFFFF))).map (fun s => s.coeff 1 1)
      = some (-1) ∧
    (next? (host State.reset (wr 0xFFFC 0x00000005))).map (fun s => s.coeff 31 255) = some 5 ∧
    (next? (host State.reset (wr 0x8000 0x04030201))).map State.P
      = some [(0x8000, 1), (0x8001, 2), (0x8002, 3), (0x8003, 4)] := by decide

/-- V-M13: the hardware returns any value, and the read is one that U1 lets a model fault. -/
theorem test_unwritten_read : (∃ t w, host State.reset (rd 0x8000) = .next t ∧ t.resp = some (.data w)) ∧
    ReadsUnwritten { State.reset with host := [rd 0x8000], sched := [.host] } :=
  ⟨⟨_, _, rfl, rfl⟩, .inr ⟨.inl rfl, rfl, _, [], 0, 0, rfl, by decide, rfl, by decide, by decide⟩⟩

/-- 95_test_vectors.md 3.2: STATUS and ERRINFO after the write of V-W1, V-W5, V-W6, V-W7, V-W8, and
V-W13 with a command in flight. -/
theorem test_issue : seen (host State.reset (wr 0x000C 0x00000000)) = some (0x26, 0, some .okay) ∧
    seen (host State.reset (wr 0x000C 0x01000003)) = some (0x36, 0x01000003, some .okay) ∧
    seen (host State.reset (wr 0x000C 0x601E1E03)) = some (0x46, 0x601E1E03, some .okay) ∧
    seen (host State.reset (wr 0x000C 0x22000101)) = some (0x56, 0x22000101, some .okay) ∧
    seen (host State.reset (wr 0x000C 0x01000201)) = some (0x01, 0, some .okay) ∧
    seen (host (accept 0x01000201 State.reset) (wr 0x000C 0x12345678))
      = some (0x15, 0x12345678, some .okay) := by decide

/-! ## Command vectors of 95_test_vectors.md section 4 -/

/-- A coefficient of a source operand on a filled state. -/
theorem filled_vec (f : Nat → Int) (a : Slot) {n p k : Nat} (hn : a.val + n ≤ 32) (hp : p < n)
    (hk : k < 256) : (filled f).coeff (a.val + p) k = wrap32 (f (a.val + p)) :=
  coeff_filled f (by omega) hk

/-- V-F1: Q - 1 + 1 is not reduced. -/
theorem test_add_command : ∃ t, exec (.add 2 0 1 1) (filled fun k => if k = 0 then 8380416 else 1) = .next t ∧
    t.coeff 2 0 = 8380417 ∧ t.status.ovf = false := by
  obtain ⟨t, ht, hc⟩ := execBinary_computes add32 2 0 1 1 (filled fun k => if k = 0 then 8380416 else 1)
  have hv : ∀ p, p < 1 → ∀ k, k < 256 →
      add32 ((filled fun k => if k = 0 then 8380416 else 1).coeff ((0 : Slot).val + p) k)
        ((filled fun k => if k = 0 then 8380416 else 1).coeff ((1 : Slot).val + p) k)
      = (8380417, false) := by
    intro p hp k hk
    obtain rfl : p = 0 := by omega
    rw [filled_vec _ 0 (n := 1) (by decide) hp hk, filled_vec _ 1 (n := 1) (by decide) hp hk]
    decide
  refine ⟨t, ht, ?_, ?_⟩
  · have := hc.result 0 (by omega) 0 (by omega)
    rw [hv 0 (by omega) 0 (by omega)] at this
    exact this
  · rw [← Bool.not_eq_true, hc.ovf]
    rintro (h | ⟨p, hp, k, hk, h⟩)
    · cases h
    · rw [hv p hp k hk] at h
      cases h

/-- V-F4: caddq of -1. -/
theorem test_caddq_command : ∃ t, exec (.caddq 3 3 1) (filled fun _ => -1) = .next t ∧
    t.coeff 3 7 = 8380416 := by
  obtain ⟨t, ht, hc⟩ := execUnary_computes (noOvf caddq) 3 3 1 (filled fun _ => -1)
  have := hc.result 0 (by omega) 7 (by omega)
  rw [filled_vec _ 3 (n := 1) (by decide) (by decide) (by decide)] at this
  exact ⟨t, ht, this⟩

/-- R166 and D29 at the first command after reset: its sources hold any value and it completes, BUSY 0
and DONE 1; the step is one that U1 lets a model fault. -/
theorem test_first_command_after_reset :
    (next? (step (State.reset.withFetchWord 32 0x00000001))).map
      (fun s => (s.infl, s.status.busy, s.status.done)) = some (none, false, true) ∧
    ReadsUnwritten (State.reset.withFetchWord 32 0x00000001) := by
  refine ⟨rfl, .inl ⟨.inl rfl, .add 0 0 0 1, ⟨0x00000001, by decide, by decide⟩, fun h => ?_⟩⟩
  have h0 := h (0 : Slot) (by decide) 0 (by decide) 0 (by decide)
  exact absurd h0 (by decide)

/-- A placed word is run by the very next step, as the command it encodes. -/
theorem test_placed_command (f : Nat → Int) :
    step ((filled f).withFetchWord 32 0x00030304)
      = mapNext retire (exec (.caddq 3 3 1) (accept 0x00030304 (filled f))) := by
  rw [step_completes (w := 0x00030304) (i := .caddq 3 3 1) (rest := (filled f).sched) rfl rfl
    (by decide)]
  rfl

/-! ## Witnesses: the hypotheses of each statement can be met -/

theorem witness_DecodeOfEncodeIsIdentity : (Instr.add 24 0 24 8).wf = true ∧
    (Instr.sub 31 0 31 1).wf = true ∧ (Instr.reduce 24 0 8).wf = true ∧ (Instr.caddq 0 0 1).wf = true ∧
    (Instr.shiftl 0 24 8).wf = true := by decide

theorem witness_EncodeOfDecodeIsIdentity : decode 0xF8001801 = .ok (.add 24 0 24 8) := by decide

theorem witness_MatchAndMaskTable :
    (0xF8001801 : Word) &&& 0x00E0E0FF = 0x00000001 ∧ (0x1F1F1F02 : Word) &&& 0x00E0E0FF = 0x00000002 ∧
    (0x001F1F03 : Word) &&& 0x1FE0E0FF = 0x00000003 ∧ (0xE0000004 : Word) &&& 0x1FE0E0FF = 0x00000004 ∧
    (0x00000005 : Word) &&& 0x1FE0E0FF = 0x00000005 ∧
    ([(0x00000000 : Word), 0x00000006, 0x0000000F, 0x00000011, 0x01000003, 0x00200005].all fun m =>
      m &&& 0x00E0E0FF != 0x00000001 && m &&& 0x00E0E0FF != 0x00000002 &&
        m &&& 0x1FE0E0FF != 0x00000003 && m &&& 0x1FE0E0FF != 0x00000004 &&
        m &&& 0x1FE0E0FF != 0x00000005) = true := by decide

/-- One word for each clause: OP 0, OP 6, reserved bits 1 and SRCB 1 in reduce, the range ending one
past slot 31, an overlap by one slot, and the last fitting and disjoint ranges. -/
theorem witness_DecodeTestsInFixedOrder : decode 0x00000000 = .error .badOpcode ∧
    decode 0x00000006 = .error .badOpcode ∧ decode 0x00000011 = .error .rsvdNonzero ∧
    decode 0x01000003 = .error .rsvdNonzero ∧ decode 0x201F1F03 = .error .slotRange ∧
    decode 0x20001F01 = .error .slotRange ∧ decode 0x20000103 = .error .overlap ∧
    decode 0x201E1E03 = .ok (.reduce 30 30 2) ∧ decode 0x20000203 = .ok (.reduce 2 0 2) := by decide

theorem witness_AssembledWordIsAccepted : ∃ (i : Instr) (w : Word) (s : State),
    assemble i = some w ∧ s.infl = none ∧ s.sched = [.host] ∧ s.host = [wr 0x000C w] :=
  ⟨.add 2 0 1 1, 0x01000201, { State.reset with host := [wr 0x000C 0x01000201], sched := [.host] },
    by decide, rfl, rfl, rfl⟩

/-- Each pseudo-instruction where it expands, and where its condition refuses it: a count of 0, a range
past slot 31, a partial overlap, A = D for mov and neg. -/
theorem witness_ExpansionsAreValidCommands :
    (Pseudo.expand (.zero 7 1)).isSome = true ∧ (Pseudo.expand (.dbl 0 0 8)).isSome = true ∧
    (Pseudo.expand (.freeze 24 0 8)).isSome = true ∧ (Pseudo.expand (.mov 3 0 1)).isSome = true ∧
    (Pseudo.expand (.neg 6 3 1)).isSome = true ∧ Pseudo.expand (.zero 0 0) = none ∧
    Pseudo.expand (.dbl 0 25 8) = none ∧ Pseudo.expand (.freeze 1 0 2) = none ∧
    Pseudo.expand (.neg 3 3 1) = none := by decide

/-- Both ends of int32, of the bands of R112, of [-Q, Q - 1] and of the shiftl domain. -/
theorem witness_scalar_statements : ∀ a ∈ [(-2147483648 : Int), 2147483647, -4194304, 4194303, 2143289344,
    -8380417, 8380416, -8380418, 8380417, -262144, 262143], -2 ^ 31 ≤ a ∧ a ≤ 2 ^ 31 - 1 := by decide

/-- Both clauses of CongruenceModQ and of OverflowDomains for each of the three wrapping primitives. -/
theorem witness_overflows : (add32 2147483647 1).2 = true ∧ (add32 2147483647 0).2 = false ∧
    (sub32 0 (-2147483648)).2 = true ∧ (sub32 (-1) 2147483647).2 = false ∧
    (shl13 262144).2 = true ∧ (shl13 (-262144)).2 = false := by decide

/-- The hypotheses of the four clauses of OutputBoundsInDomain on one state, and the ends of the
domains. -/
theorem witness_OutputBoundsInDomain : (∃ s : State, ∀ p, p < 8 → ∀ k, k < 256 →
      InDomain (.add 0 24 16 8) (s.coeff ((24 : Slot).val + p) k) (s.coeff ((16 : Slot).val + p) k) = true ∧
      InDomain (.sub 0 24 16 8) (s.coeff ((24 : Slot).val + p) k) (s.coeff ((16 : Slot).val + p) k) = true ∧
      InDomain (.shiftl 0 24 8) (s.coeff ((24 : Slot).val + p) k) 0 = true ∧
      InDomain (.caddq 0 24 8) (s.coeff ((24 : Slot).val + p) k) 0 = true) ∧
    InDomain (.add 0 0 0 1) 2147483646 1 = true ∧
    InDomain (.sub 0 0 0 1) (-2147483647) 1 = true ∧ InDomain (.shiftl 0 0 1) (-262144) 0 = true ∧
    InDomain (.shiftl 0 0 1) 262143 0 = true ∧ InDomain (.caddq 0 0 1) (-8380417) 0 = true ∧
    InDomain (.caddq 0 0 1) 8380416 0 = true ∧ InDomain (.add 0 0 0 1) 2147483647 1 = false := by
  refine ⟨⟨filled fun _ => 1, fun p hp k hk => ?_⟩, by decide⟩
  rw [filled_vec _ 24 (n := 8) (by decide) hp hk, filled_vec _ 16 (n := 8) (by decide) hp hk]
  decide

theorem witness_CommandFrame : ∃ s t, exec (.reduce 31 0 1) s = .next t := ⟨State.reset, _, rfl⟩

/-- The hypotheses of ZeroClearsSlots, and of MovCopiesSlots and NegNegatesSlots on adjoining ranges. -/
theorem witness_ZeroClearsSlots : ∃ s : State, Readable s 24 8 ∧ (16 : Slot).val + 8 ≤ (24 : Slot).val :=
  ⟨filled fun _ => 1, fun p hp k hk => written_filled _ (show 24 + p < 32 by omega) hk, by decide⟩

/-- `caddq p3, p3` in flight on a filled store, with given turns and host items. -/
def busy (sched : List Agent) (ops : List HostOp) : State :=
  { accept 0x00030304 (filled fun _ => -1) with sched := sched, host := ops }

theorem busy_inFlight (sched : List Agent) (ops : List HostOp) :
    InFlight (.caddq 3 3 1) (busy sched ops) := ⟨0x00030304, rfl, by decide⟩

theorem busy_coeff (sched : List Agent) (ops : List HostOp) {k i : Nat} (hk : k < 32) (hi : i < 256) :
    (busy sched ops).coeff k i = -1 := by
  have h : (busy sched ops).coeff k i = (filled fun _ => -1).coeff k i := coeff_congr rfl rfl _ _
  rw [h, coeff_filled _ hk hi]
  rfl

/-- The hypotheses of CompletionAlwaysSucceeds and InterruptLevel's second clause. -/
theorem witness_completion : ∃ s, InFlight (.caddq 3 3 1) s ∧ s.sched = [.engine] ∧
    ∃ t, step s = .next t := by
  refine ⟨busy [.engine] [], busy_inFlight _ _, rfl, ?_⟩
  rw [step_completes (rest := []) rfl rfl (show decode 0x00030304 = .ok (.caddq 3 3 1) by decide)]
  exact ⟨_, rfl⟩

/-- The hypotheses of both clauses of CommandCompletesWhateverTheHostDoes, the first with an item that
raises a BusError. -/
theorem witness_CommandCompletesWhateverTheHostDoes : ∃ s s' : State, InFlight (.caddq 3 3 1) s ∧
    s.sched = List.replicate 3 .host ++ .engine :: [] ∧ Benign s.host ∧ InFlight (.caddq 3 3 1) s' ∧
    s'.sched = List.replicate 3 .host ++ .engine :: [] ∧ s'.host = [rd 0x0018, wr 0x0002 1] := by
  refine ⟨busy [.host, .host, .host, .engine] [.wait, wr 0x000C 0, rd 0xFFFC],
    busy [.host, .host, .host, .engine] [rd 0x0018, wr 0x0002 1], busy_inFlight _ _, rfl, ?_,
    busy_inFlight _ _, rfl, rfl⟩
  intro t ht
  simp only [busy, wr, rd, List.mem_cons, HostOp.txn.injEq, reduceCtorEq, List.not_mem_nil,
    false_or, or_false] at ht
  rcases ht with rfl | rfl <;> decide

theorem witness_ControlIndependentOfCoefficients : ∃ (s t : State) (m : Memory),
    step s = .next t ∧ s.P ≠ m := ⟨State.reset, State.reset, [(0x8000, 1)], rfl, by decide⟩

/-- The hypotheses of AcceptanceOfACommand and of both clauses of RejectionOfACommand. -/
theorem witness_issue :
    (∃ s : State, s.infl = none ∧ decode 0x00030304 = .ok (.caddq 3 3 1) ∧ s.sched = [.host] ∧
      s.host = [wr 0x000C 0x00030304]) ∧
    (∃ s : State, s.infl = none ∧ decode 0x000000F7 = .error .badOpcode ∧ s.sched = [.host] ∧
      s.host = [wr 0x000C 0x000000F7]) ∧
    (∃ s : State, s.infl ≠ none ∧ s.sched = [.host] ∧ s.host = [wr 0x000C 0x00030304]) :=
  ⟨⟨{ State.reset with sched := [.host], host := [wr 0x000C 0x00030304] }, rfl, by decide, rfl, rfl⟩,
    ⟨{ State.reset with sched := [.host], host := [wr 0x000C 0x000000F7] }, rfl, by decide, rfl, rfl⟩,
    ⟨busy [.host] [wr 0x000C 0x00030304], by decide, rfl, rfl⟩⟩

/-- The hypotheses of the three clauses of CtrlWriteAndRead and of InterruptLevel's third clause. -/
theorem witness_ctrl : ∃ s s' r : State, s.sched = [.host] ∧ s.host = [wr 0x0008 3] ∧
    (3 : Word).getLsbD 1 = true ∧ (∃ t, step s = .next t) ∧ s'.sched = [.host] ∧
    s'.host = [wr 0x0008 1] ∧ (1 : Word).getLsbD 1 = false ∧ r.sched = [.host] ∧
    r.host = [rd 0x0008] :=
  ⟨{ State.reset with sched := [.host], host := [wr 0x0008 3] },
    { State.reset with sched := [.host], host := [wr 0x0008 1] },
    { State.reset with sched := [.host], host := [rd 0x0008] }, rfl, rfl, by decide, ⟨_, rfl⟩, rfl, rfl,
    by decide, rfl, rfl⟩

/-- The hypotheses of both clauses of StepRunsTheDecodedCommand. -/
theorem witness_StepRunsTheDecodedCommand : ∃ s s' : State, s.infl = some 0x00030304 ∧
    s'.infl = some 0x00030304 ∧ decode 0x00030304 = .ok (.caddq 3 3 1) ∧ s.sched = [.engine] ∧
    s'.sched = [] := ⟨busy [.engine] [], busy [] [], rfl, rfl, by decide, rfl, rfl⟩

/-- The hypotheses of RegisterReads and ReadOnlyWritesIgnored, also while a command is in flight. -/
theorem witness_registers : ∃ s s' : State, s.sched = [.host] ∧ s.host = [rd 0x0014] ∧
    s'.sched = [.host] ∧ s'.host = [wr 0x0014 1] ∧ s.infl ≠ none :=
  ⟨busy [.host] [rd 0x0014], busy [.host] [wr 0x0014 1], rfl, rfl, rfl, rfl, by decide⟩

/-- Both ends of the window for WindowOffsets. -/
theorem witness_WindowOffsets : 0x8000 ≤ (0x8000 : Addr).toNat ∧ (0x8000 : Addr).toNat % 4 = 0 ∧
    0x8000 ≤ (0xFFFC : Addr).toNat ∧ (0xFFFC : Addr).toNat % 4 = 0 ∧
    region 0x8000 = .window 0 0 ∧ region 0xFFFC = .window 31 255 := by decide

/-- The hypotheses of WindowWrite, of WindowRead where the coefficient has been written, and of WindowReadAfterWrite, at the
last coefficient. -/
theorem witness_window : ∃ s s' : State, s.infl = none ∧ s.written 31 255 = false ∧
    s.sched = [.host, .host] ∧
    s.host = [wr (BitVec.ofNat 16 (0x8000 + 0x400 * 31 + 4 * 255)) 7,
      rd (BitVec.ofNat 16 (0x8000 + 0x400 * 31 + 4 * 255))] ∧
    s'.infl = none ∧ s'.written 31 255 = true ∧ s'.sched = [.host] ∧
    s'.host = [rd (BitVec.ofNat 16 (0x8000 + 0x400 * 31 + 4 * 255))] := by
  have hc := written_filled (fun _ => 7) (k := 31) (i := 255) (by decide) (by decide)
  exact ⟨{ State.reset with sched := [.host, .host], host := [wr _ 7, rd _] },
    { filled fun _ => 7 with sched := [.host], host := [rd _] }, rfl, by decide, rfl, rfl, rfl, hc,
    rfl, rfl⟩

/-- One transaction for each clause of BusErrors, with the ends of the unmapped range. -/
theorem witness_BusErrors : (0x8002 : Addr).toNat % 4 ≠ 0 ∧
    (Txn.mk .read 0x8000 2 0xF).width ≠ 4 ∧ (Txn.mk .read 0x8000 4 0x7).lanes ≠ 0xF ∧
    0x0018 ≤ (0x0018 : Addr).toNat ∧ (0x7FFC : Addr).toNat ≤ 0x7FFF ∧
    ∃ s : State, s.sched = [.host] ∧ s.host = [rd 0x7FFC] := by
  refine ⟨by decide, by decide, by decide, by decide, by decide, ?_⟩
  exact ⟨busy [.host] [rd 0x7FFC], rfl, rfl⟩

/-- The hypotheses of both clauses of WindowTransactionHeld, at both ends of the window. -/
theorem witness_WindowTransactionHeld : ∃ s s' : State, s.infl = some 0x00030304 ∧
    s.host = [rd 0x8000] ∧ s.sched = [.host] ∧ s'.infl = some 0x00030304 ∧
    s'.host = [wr 0xFFFC 9] ∧ s'.sched = [.reset, .host] ∧ 0x8000 ≤ (0x8000 : Addr).toNat ∧
    0x8000 ≤ (0xFFFC : Addr).toNat :=
  ⟨busy [.host] [rd 0x8000], busy [.reset, .host] [wr 0xFFFC 9], rfl, rfl, rfl, rfl, rfl, rfl,
    by decide, by decide⟩

theorem witness_HeldReadSeesTheCompletedValue : ∃ s u : State, InFlight (.caddq 3 3 1) s ∧
    exec (.caddq 3 3 1) s = .next u ∧ u.coeff 3 0 = 8380416 ∧
    s.sched = [.host, .engine, .host] ∧ s.host = [rd (BitVec.ofNat 16 (0x8000 + 0x400 * 3 + 4 * 0))] := by
  obtain ⟨u, hu, hc⟩ := execUnary_computes (noOvf caddq) 3 3 1
    (busy [.host, .engine, .host] [rd 0x8C00])
  have h := hc.result 0 (by omega) 0 (by omega)
  rw [busy_coeff _ _ (by decide) (by decide)] at h
  exact ⟨_, u, busy_inFlight _ _, hu, h, rfl, rfl⟩

/-- The hypotheses of WaitPollsBusy for both values of BUSY, and of ResetStep. -/
theorem witness_turns : ∃ s s' r : State, s.sched = [.host] ∧ s.host = [.wait] ∧
    s.status.busy = true ∧ s'.sched = [.host] ∧ s'.host = [.wait] ∧ s'.status.busy = false ∧
    r.sched = [.reset] ∧ r.infl ≠ none :=
  ⟨busy [.host] [.wait], { State.reset with sched := [.host], host := [.wait] }, busy [.reset] [],
    rfl, rfl, rfl, rfl, rfl, rfl, rfl, by decide⟩

/-- StepKeepsLegalStates, LegalStatesAreNeverRefused: the state after reset is legal and steps. -/
theorem witness_StepKeepsLegalStates : BusyMatches State.reset ∧ InFlightValid State.reset ∧
    StatusLegal State.reset ∧ ErrCodeProduced State.reset ∧ ErrInfoCleared State.reset ∧
    StoreLegal State.reset ∧ step State.reset = .next State.reset :=
  ⟨rfl, by simp [InFlightValid, State.reset], by decide, by decide, by decide,
    ⟨rfl, by simp [State.reset]⟩, rfl⟩

/-- FirstErrorIsKept and both clauses of OvfSetAndCleared, BusySpan and DoneSpan: steps that set and
that clear each bit. -/
theorem witness_status_changes :
    (∃ s t : State, step s = .next t ∧ s.status.err = true) ∧
    (∃ s t : State, step s = .next t ∧ s.status.ovf = false ∧ t.status.ovf = true) ∧
    (∃ s t : State, step s = .next t ∧ s.status.ovf = true ∧ t.status.ovf = false) ∧
    (∃ s t : State, step s = .next t ∧ s.status.busy = false ∧ t.status.busy = true) ∧
    (∃ s t : State, step s = .next t ∧ s.status.busy = true ∧ t.status.busy = false) ∧
    (∃ s t : State, step s = .next t ∧ s.status.done = false ∧ t.status.done = true) ∧
    (∃ s t : State, step s = .next t ∧ s.status.done = true ∧ t.status.done = false) := by
  refine ⟨⟨raiseCmdError .overlap 0 State.reset, _, rfl, rfl⟩, ?_,
    ⟨{ State.reset with status := { Status.reset with ovf := true }, sched := [.reset] }, _, rfl, rfl, rfl⟩,
    ⟨{ State.reset with sched := [.host], host := [wr 0x000C 0x00030304] }, _, rfl, rfl, rfl⟩,
    ⟨busy [.reset] [], _, rfl, rfl, rfl⟩,
    ⟨{ State.reset with sched := [.host], host := [wr 0x000C 0] }, _, rfl, rfl, rfl⟩,
    ⟨{ State.reset with status := { Status.reset with done := true }, sched := [.reset] }, _, rfl, rfl, rfl⟩⟩
  obtain ⟨u, hu, hc⟩ := execUnary_computes shl13 4 4 1
    (popSched { accept 0x00040405 (filled fun _ => 262144) with sched := [.engine] })
  refine ⟨{ accept 0x00040405 (filled fun _ => 262144) with sched := [.engine] }, retire u, ?_, rfl, ?_⟩
  · rw [step_completes (rest := []) rfl rfl (show decode 0x00040405 = .ok (.shiftl 4 4 1) by decide)]
    show mapNext retire (execUnary shl13 4 4 1 _) = _
    rw [hu]
    rfl
  · simp only [retire_status]
    refine hc.ovf.mpr (.inr ⟨0, by omega, 0, by omega, ?_⟩)
    have h : ∀ c : Int, c = wrap32 262144 → (shl13 c).2 = true := by rintro _ rfl; decide
    exact h _ ((coeff_congr rfl rfl _ _).trans
      (filled_vec (fun _ => 262144) 4 (n := 1) (by decide) (by decide) (by decide)))

theorem witness_CommandInFlightIsNotReplaced : ∃ s t : State, step s = .next t ∧
    s.infl = some 0x00030304 := ⟨busy [.host] [wr 0x000C 1], _, rfl, rfl⟩

theorem witness_CoefficientsChangeOnlySo : ∃ s t : State, step s = .next t ∧
    t.P.byte? 0x8000 ≠ s.P.byte? 0x8000 :=
  ⟨{ State.reset with sched := [.host], host := [wr 0x8000 1] }, _, rfl, by decide⟩

/-- The hypotheses of both clauses of ClearRacesCompletion, with a word that also sets IE. -/
theorem witness_ClearRacesCompletion : ∃ s s' : State, InFlight (.caddq 3 3 1) s ∧
    (3 : Word).getLsbD 1 = true ∧ s.host = [wr 0x0008 3] ∧ s.sched = [.host, .engine] ∧
    InFlight (.caddq 3 3 1) s' ∧ s'.host = [wr 0x0008 3] ∧ s'.sched = [.engine, .host] :=
  ⟨busy [.host, .engine] [wr 0x0008 3], busy [.engine, .host] [wr 0x0008 3], busy_inFlight _ _,
    by decide, rfl, rfl, busy_inFlight _ _, rfl, rfl⟩

/-- The hypotheses of both clauses of SecondCommandRacesCompletion. -/
theorem witness_SecondCommandRacesCompletion : ∃ s s' : State, InFlight (.caddq 3 3 1) s ∧
    decode 0x00000204 = .ok (.caddq 2 0 1) ∧ s.status.err = false ∧
    s.host = [wr 0x000C 0x00000204] ∧ s.sched = [.host, .engine] ∧ InFlight (.caddq 3 3 1) s' ∧
    s'.status.err = false ∧ s'.host = [wr 0x000C 0x00000204] ∧ s'.sched = [.engine, .host] :=
  ⟨busy [.host, .engine] [wr 0x000C 0x00000204], busy [.engine, .host] [wr 0x000C 0x00000204],
    busy_inFlight _ _, by decide, rfl, rfl, rfl, busy_inFlight _ _, rfl, rfl, rfl⟩

/-- The hypotheses of UnwrittenSourcesAreReadAndRun: with an unwritten source (the same state as in
`test_first_command_after_reset`) and with every source written. -/
theorem witness_UnwrittenSourcesAreReadAndRun : ∃ s s' : State, InFlight (.add 0 0 0 1) s ∧
    s.sched = [.engine] ∧ s.written 0 0 = false ∧ InFlight (.caddq 3 3 1) s' ∧
    s'.sched = [.engine] ∧ s'.written 3 0 = true :=
  ⟨State.reset.withFetchWord 32 0x00000001, busy [.engine] [], ⟨0x00000001, by decide, by decide⟩,
    by decide, by decide, busy_inFlight _ _, rfl, written_filled _ (by decide) (by decide)⟩

/-- A strict step that completes a command. -/
theorem witness_StrictStepsReadNoFreeValue : ∃ s t : State, StrictStep s (.next t) ∧
    s.status.busy = true ∧ t.status.busy = false := by
  have h : step (busy [.engine] []) = mapNext retire (exec (.caddq 3 3 1) (popSched (busy [.engine] []))) :=
    step_completes (rest := []) rfl rfl (show decode 0x00030304 = .ok (.caddq 3 3 1) by decide)
  refine ⟨busy [.engine] [], _, ⟨?_, h⟩, rfl, rfl⟩
  rintro (⟨-, i, ⟨w, hw, hi⟩, hr⟩ | ⟨-, hn, -⟩)
  · cases hw
    obtain rfl : Instr.caddq 3 3 1 = i :=
      Except.ok.inj ((show decode 0x00030304 = .ok (.caddq 3 3 1) by decide).symm.trans hi)
    refine hr fun a ha p hp k hk => ?_
    obtain rfl : a = 3 := by simpa [Instr.sources, Instr.srcA, Instr.srcB] using ha
    obtain rfl : p = 0 := by simpa [Instr.count] using hp
    exact written_filled _ (by decide) hk
  · cases hn

end Sys2Proof.Tests
end

section
/-! PROOFS. Legal states (10_state.md R25, R30, R37): each update of the block keeps `Inv`. -/

namespace Sys2Proof.Machine

/-- With a legal store, a state that differs from a legal one in its store and in OVF alone is legal. -/
theorem inv_of_storeLegal {s t : State} {o : Bool} (hinfl : t.infl = s.infl)
    (hstatus : t.status = { s.status with ovf := o }) (herrinfo : t.errinfo = s.errinfo)
    (hstore : StoreLegal t) (h : Inv s) : Inv t where
  busy := by simpa [BusyMatches, hstatus, hinfl] using h.busy
  inFlight := by simpa [InFlightValid, hinfl] using h.inFlight
  status := by simpa [StatusLegal, hstatus] using h.status
  errcode := by simpa [ErrCodeProduced, hstatus] using h.errcode
  errinfo := by simpa [ErrInfoCleared, hstatus, herrinfo] using h.errinfo
  store := hstore

/-- `Inv` speaks of the store, INFL, STATUS and ERRINFO alone. -/
theorem inv_congr {s t : State} (hP : t.P = s.P) (hinfl : t.infl = s.infl)
    (hstatus : t.status = s.status) (herrinfo : t.errinfo = s.errinfo) (h : Inv s) : Inv t :=
  inv_of_storeLegal (o := s.status.ovf) hinfl hstatus herrinfo
    (by simpa [StoreLegal, hP] using h.store) h

/-- A block with nothing written, nothing in flight and its registers at 0 is legal. -/
theorem inv_of_reset {s : State} (hP : s.P = []) (hinfl : s.infl = none)
    (hstatus : s.status = Status.reset) (herrinfo : s.errinfo = 0) : Inv s where
  busy := by rw [BusyMatches, hstatus, hinfl]; rfl
  inFlight := by simp [InFlightValid, hinfl]
  status := by rw [StatusLegal, hstatus]; decide
  errcode := by rw [ErrCodeProduced, hstatus]; decide
  errinfo _ := herrinfo
  store := by simp [StoreLegal, hP, Memory.wf]

theorem inv_popSched {s : State} : Inv s → Inv (popSched s) := inv_congr rfl rfl rfl rfl

theorem inv_popHost {s : State} : Inv s → Inv (popHost s) := inv_congr rfl rfl rfl rfl

theorem inv_respond {r : Response} {s : State} : Inv s → Inv (respond r s) :=
  inv_congr rfl rfl rfl rfl

theorem inv_waitTurn {s : State} : Inv s → Inv (waitTurn s) :=
  inv_congr (by simp) (by simp) (by simp) (by simp)

/-- A rejection leaves the first error recorded; it raises DONE only in an idle block. -/
theorem inv_raiseCmdError {e : CmdError} {w : Word} {s : State} (h : Inv s)
    (he : e = .cmdBusy ∨ s.infl = none) : Inv (raiseCmdError e w s) where
  busy := by simpa [BusyMatches] using h.busy
  inFlight := by simpa [InFlightValid] using h.inFlight
  status := by
    have ⟨hcode, hdone⟩ := h.status
    have hbusy := h.busy
    refine ⟨?_, ?_⟩
    · have hne := (code_bounds e).1
      cases herr : s.status.err <;> simp_all
    · rcases he with rfl | hn
      · simpa using hdone
      · simp [hbusy, hn]
  errcode := by
    have hcode := h.errcode
    rw [ErrCodeProduced, raiseCmdError_status_errcode]
    split
    · exact hcode
    · exact (code_bounds e).2
  errinfo herr := by simp at herr
  store := by simpa [StoreLegal] using h.store

/-- A valid command may be accepted. -/
theorem inv_accept {w : Word} {i : Instr} {s : State} (h : Inv s) (hi : decode w = .ok i) :
    Inv (accept w s) where
  busy := rfl
  inFlight v hv := ⟨i, by cases hv; exact hi⟩
  status := ⟨h.status.1, fun _ => rfl⟩
  errcode := h.errcode
  errinfo := h.errinfo
  store := h.store

theorem inv_issueCommand {w : Word} {s : State} (h : Inv s) : Inv (issueCommand w s) := by
  rcases issueCommand_cases w s with ⟨v, -, heq⟩ | ⟨e, hn, -, heq⟩ | ⟨i, -, hi, heq⟩ <;> rw [heq]
  · exact inv_raiseCmdError h (.inl rfl)
  · exact inv_raiseCmdError h (.inr hn)
  · exact inv_accept h hi

theorem inv_ctrlWrite {v : Word} {s : State} (h : Inv s) : Inv (ctrlWrite v s) := by
  by_cases hclr : bits v 1 1 = 1
  · exact
      { busy := by simpa [BusyMatches, hclr] using h.busy
        inFlight := by simpa [InFlightValid] using h.inFlight
        status := by simp [StatusLegal, hclr]
        errcode := by simp [ErrCodeProduced, hclr]
        errinfo := by simp [ErrInfoCleared, hclr]
        store := by simpa [StoreLegal] using h.store }
  · exact inv_congr (by simp) (by simp) (by simp [hclr]) (by simp [hclr]) h

/-- Whole words written inside the window keep the store legal. -/
theorem storeLegal_storeWords {s t : State} {a : Nat} {ws : List Word}
    (hP : t.P = s.P.storeWords a ws) (h4 : a % 4 = 0) (hlo : 0x8000 ≤ a)
    (hhi : a + 4 * ws.length ≤ 0x10000) (h : StoreLegal s) : StoreLegal t := by
  obtain ⟨hwf, hcells⟩ := h
  rw [StoreLegal, hP]
  refine ⟨storeWords_wf hwf a ws, fun c hc => ?_⟩
  rcases mem_storeWords hc with ⟨hold, hout⟩ | ⟨hge, hlt⟩
  · obtain ⟨hclo, hchi, hword⟩ := hcells c hold
    refine ⟨hclo, hchi, ?_⟩
    rwa [word?_storeWords_outside (by omega)]
  · refine ⟨by omega, by omega, ?_⟩
    rw [show c.1 / 4 * 4 = a + 4 * ((c.1 - a) / 4) by omega, word?_storeWords_inside (by omega)]
    rfl

/-- Writing whole words inside the window keeps a state legal, whatever becomes of OVF. -/
theorem inv_storeWords {s t : State} {a : Nat} {ws : List Word} {o : Bool}
    (hP : t.P = s.P.storeWords a ws) (hinfl : t.infl = s.infl)
    (hstatus : t.status = { s.status with ovf := o }) (herrinfo : t.errinfo = s.errinfo)
    (h4 : a % 4 = 0) (hlo : 0x8000 ≤ a) (hhi : a + 4 * ws.length ≤ 0x10000) (h : Inv s) : Inv t :=
  inv_of_storeLegal hinfl hstatus herrinfo (storeLegal_storeWords hP h4 hlo hhi h.store) h

theorem inv_writeCoeff {k i : Nat} {w : Word} {s : State} (hk : k < 32) (hi : i < 256)
    (h : Inv s) : Inv (writeCoeff k i w s) := by
  refine inv_storeWords (writeCoeff_P k i w s) rfl rfl rfl (coeffAddr_aligned k i) ?_ ?_ h
  · simp only [coeffAddr]; omega
  · simp only [coeffAddr, List.length_singleton]; omega

/-- The destination of a decoded command lies inside the register file (30_encoding.md R86). -/
theorem dst_fits_of_decode {w : Word} {i : Instr} (h : decode w = .ok i) :
    i.dst.val + i.count ≤ 32 := by
  obtain ⟨hi, -, hr, -⟩ := decode_eq_ok_iff.mp h
  have hd := (slotRangeOk_iff.mp hr).1
  rcases instrOf_eq_some_iff.mp hi with ⟨-, rfl⟩ | ⟨-, rfl⟩ | ⟨-, rfl⟩ | ⟨-, rfl⟩ | ⟨-, rfl⟩ <;>
    exact hd

/-- The results of a command whose destination fits keep a state legal. -/
theorem inv_exec {i : Instr} {s t : State} (hd : i.dst.val + i.count ≤ 32)
    (he : exec i s = .next t) (h : Inv s) : Inv t := by
  obtain ⟨rs, hl, rfl⟩ := exec_eq_next he
  refine inv_storeWords (commitVec_P i.dst rs s) (by simp) (commitVec_status i.dst rs s)
    (by simp) (coeffAddr_aligned _ _) ?_ ?_ h
  · simp only [slotAddr, coeffAddr]; omega
  · simp only [slotAddr, coeffAddr, List.length_map, hl, vecLen_eq]; omega

theorem inv_retire {s : State} (h : Inv s) : Inv (retire s) where
  busy := rfl
  inFlight := by simp [InFlightValid]
  status := ⟨h.status.1, fun hb => by simp at hb⟩
  errcode := h.errcode
  errinfo := h.errinfo
  store := h.store

/-- Settles O48: the reset state is a block with nothing written and its registers at 0. -/
theorem resetIsLegal : Obligations.ResetIsLegal := inv_of_reset rfl rfl rfl rfl

/-- Settles O49: every case of `StepTo` is a chain of updates that each keep `Inv`. -/
theorem stepKeepsLegalStates : Obligations.StepKeepsLegalStates := by
  intro s t h hstep
  have h1 : Inv (popSched s) := inv_popSched h
  have h2 : Inv (popHost (popSched s)) := inv_popHost h1
  cases step_cases hstep with
  | reset => exact inv_of_reset rfl rfl rfl rfl
  | idle => exact h1
  | complete w i u hw hi turn hu => exact inv_retire (inv_exec (dst_fits_of_decode hi) hu h1)
  | poll => exact inv_waitTurn h1
  | answer => exact inv_respond h2
  | ctrl => exact inv_respond (inv_ctrlWrite h2)
  | cmd => exact inv_respond (inv_issueCommand h2)
  | window turn x ops w k i hx ok op hk hi => exact inv_respond (inv_writeCoeff hk hi h2)

end Sys2Proof.Machine
end

section
/-! PROOFS. The frame of a command (10_state.md R22, 40_poly_arith.md R117) and its completion on
sources that nothing has written (10_state.md R24). -/

namespace Sys2Proof.Machine

/-! ## What a command leaves unchanged -/

/-- A command that reaches a next state touches its destination and OVF alone. -/
theorem exec_untouched {i : Instr} {s t : State} (h : exec i s = .next t) :
    Untouched i.dst i.count s t := by
  obtain ⟨rs, hl, rfl⟩ := exec_eq_next h
  exact commitVec_untouched s hl

/-- A coefficient outside the destination has been written exactly if it had been. -/
theorem Untouched.written_eq {d : Slot} {n : Nat} {s t : State} (h : Untouched d n s t) {q k : Nat}
    (hk : k < 256) (hq : q < d.val ∨ d.val + n ≤ q) : t.written q k = s.written q k := by
  have hbytes (l : Nat) (hl : l < 4) :
      t.P.byte? (coeffAddr q k + l) = s.P.byte? (coeffAddr q k + l) :=
    h.bytes _ (by simp only [slotAddr, coeffAddr]; omega)
  rw [State.written, State.written, word?_congr hbytes]

/-- A coefficient outside the destination holds what it held. -/
theorem Untouched.coeff_eq {d : Slot} {n : Nat} {s t : State} (h : Untouched d n s t) {q k : Nat}
    (hk : k < 256) (hq : q < d.val ∨ d.val + n ≤ q) : t.coeff q k = s.coeff q k := by
  have hbytes (l : Nat) (hl : l < 4) :
      t.P.byteOr t.contents (coeffAddr q k + l) = s.P.byteOr s.contents (coeffAddr q k + l) := by
    rw [Memory.byteOr, Memory.byteOr, State.contents, State.contents, h.epoch,
      h.bytes _ (by simp only [slotAddr, coeffAddr]; omega)]
  rw [State.coeff, State.coeff, wordOr_congr hbytes]

/-- A command whose primitive never indicates an overflow leaves OVF alone. -/
theorem execUnary_noOvf_ovf {f : Int → Int} {d a : Slot} {n : Nat} {s t : State}
    (h : execUnary (noOvf f) d a n s = .next t) : t.status.ovf = s.status.ovf := by
  obtain ⟨u, hu, hc⟩ := execUnary_computes (noOvf f) d a n s
  obtain rfl : u = t := by simpa [hu] using h
  simpa [noOvf, ← Bool.eq_iff_iff] using hc.ovf

/-- reduce and caddq leave OVF alone. -/
theorem exec_ovf_of_reduce_or_caddq {i : Instr} {d a : Slot} {n : Nat} {s t : State}
    (hi : i = .reduce d a n ∨ i = .caddq d a n) (h : exec i s = .next t) :
    t.status.ovf = s.status.ovf := by
  rcases hi with rfl | rfl
  · exact execUnary_noOvf_ovf (f := reduce32) h
  · exact execUnary_noOvf_ovf (f := caddq) h

/-- Settles O19: the frame is `Untouched`, field by field. -/
theorem commandFrame : Obligations.CommandFrame := by
  intro i s t h
  have hu := exec_untouched h
  refine ⟨fun x hx => hu.bytes x ?_, hu.infl, ?_, ?_, ?_, ?_, hu.ie, hu.errinfo, hu.host, hu.sched,
    hu.resp, hu.epoch, hu.sticky, fun d a n hi => exec_ovf_of_reduce_or_caddq hi h⟩
  · simp only [slotAddr, coeffAddr]; omega
  all_goals rw [hu.status]

/-! ## A command runs whatever its sources hold -/

/-- Every command reaches a next state, with its whole destination written. -/
theorem exec_writes_dst (i : Instr) (s : State) : ∃ t, exec i s = .next t ∧
    ∀ p, p < i.count → ∀ k, k < 256 → t.written (i.dst.val + p) k = true := by
  obtain ⟨rs, hl, h⟩ := exec_eq_commit i s
  exact ⟨_, h, fun p hp k hk => written_commitVec s hl hp hk⟩

/-- Settles O20: a command is a commit of its whole destination, and outside it the frame holds. -/
theorem commandRunsOnAnySources : Obligations.CommandRunsOnAnySources := by
  intro i s
  obtain ⟨t, ht, hw⟩ := exec_writes_dst i s
  have hu := exec_untouched ht
  exact ⟨t, ht, hw, fun q k hk hq => ⟨hu.written_eq hk hq, hu.coeff_eq hk hq⟩⟩

/-- A command has an unwritten source coefficient exactly if it is not ready. -/
theorem not_ready_iff {i : Instr} {s : State} :
    ¬ Ready i s ↔ ∃ a, a ∈ i.sources ∧ ∃ p, p < i.count ∧ ∃ k, k < 256 ∧
      s.written (a.val + p) k = false := by
  simp only [Ready, Readable, Config.N, not_forall, exists_prop, Bool.not_eq_true]

/-- One command at most is in flight. -/
theorem inFlight_unique {i j : Instr} {s : State} (hi : InFlight i s) (hj : InFlight j s) : i = j := by
  obtain ⟨w, hw, hi⟩ := hi
  obtain ⟨v, hv, hj⟩ := hj
  obtain rfl : w = v := Option.some.inj (hw.symm.trans hv)
  exact Except.ok.inj (hi.symm.trans hj)

/-- With a command in flight, only a completion reads unwritten coefficients: those of a source. -/
theorem readsUnwritten_engine {s : State} {i : Instr} (turn : EngineTurn s) (hf : InFlight i s) :
    ReadsUnwritten s ↔ ¬ Ready i s := by
  constructor
  · rintro (⟨-, j, hj, hr⟩ | ⟨-, hn, -⟩)
    · rwa [inFlight_unique hf hj]
    · obtain ⟨w, hw, -⟩ := hf
      simp [hw] at hn
  · exact fun hr => .inl ⟨turn, i, hf, hr⟩

/-- Settles O59: U1's case is a command that is not ready, and readiness plays no part in `exec`. -/
theorem unwrittenSourcesAreReadAndRun : Obligations.UnwrittenSourcesAreReadAndRun := by
  intro s i rest hf hs
  refine ⟨(readsUnwritten_engine (.inl (by simp [hs])) hf).trans not_ready_iff, ?_⟩
  obtain ⟨w, hw, hi⟩ := hf
  obtain ⟨u, hu, hwritten⟩ := exec_writes_dst i (popSched s)
  refine ⟨retire u, ?_, rfl, rfl, rfl, hwritten⟩
  rw [step_completes hs hw hi, hu]
  rfl

end Sys2Proof.Machine
end

section
/-! PROOFS. The rules of the whole machine (10_state.md R22, R25, R31 to R34), each a case analysis
over what one step can do. -/

namespace Sys2Proof.Machine

/-! ## What the issue and the completion of a command do to STATUS -/

@[simp] theorem issueCommand_status_ovf (w : Word) (s : State) :
    (issueCommand w s).status.ovf = s.status.ovf := by
  rcases issueCommand_cases w s with ⟨v, -, heq⟩ | ⟨e, -, -, heq⟩ | ⟨i, -, -, heq⟩ <;> simp [heq]

/-- A CMD write leaves a recorded error alone (60_exceptions.md R163). -/
theorem issueCommand_keeps_error (w : Word) {s : State} (herr : s.status.err = true) :
    (issueCommand w s).status.err = true ∧
      (issueCommand w s).status.errcode = s.status.errcode ∧
      (issueCommand w s).errinfo = s.errinfo := by
  rcases issueCommand_cases w s with ⟨v, -, heq⟩ | ⟨e, -, -, heq⟩ | ⟨i, -, -, heq⟩ <;>
    simp [heq, herr]

/-- A CMD write that raises BUSY accepts its word, in an idle block. -/
theorem issueCommand_raises_busy {w : Word} {s : State} (h0 : s.status.busy = false)
    (h1 : (issueCommand w s).status.busy = true) :
    ∃ i, s.infl = none ∧ decode w = .ok i ∧ (issueCommand w s).infl = some w := by
  rcases issueCommand_cases w s with ⟨v, -, heq⟩ | ⟨e, -, -, heq⟩ | ⟨i, hn, hi, heq⟩
  · simp [heq, h0] at h1
  · simp [heq, h0] at h1
  · exact ⟨i, hn, hi, by simp [heq]⟩

/-- No CMD write lowers BUSY. -/
theorem issueCommand_keeps_busy (w : Word) {s : State} (h : s.status.busy = true) :
    (issueCommand w s).status.busy = true := by
  rcases issueCommand_cases w s with ⟨v, -, heq⟩ | ⟨e, -, -, heq⟩ | ⟨i, -, -, heq⟩ <;>
    simp [heq, h]

/-- A CMD write that raises DONE is rejected, by an idle block. -/
theorem issueCommand_raises_done {w : Word} {s : State} (h0 : s.status.done = false)
    (h1 : (issueCommand w s).status.done = true) :
    ∃ e, s.infl = none ∧ decode w = .error e ∧ (issueCommand w s).status.err = true := by
  rcases issueCommand_cases w s with ⟨v, -, heq⟩ | ⟨e, hn, he, heq⟩ | ⟨i, -, -, heq⟩
  · simp [heq, h0] at h1
  · exact ⟨e, hn, he, by simp [heq]⟩
  · simp [heq] at h1

/-- A CMD write that lowers DONE accepts its word, in an idle block. -/
theorem issueCommand_lowers_done {w : Word} {s : State} (h0 : s.status.done = true)
    (h1 : (issueCommand w s).status.done = false) :
    ∃ i, s.infl = none ∧ decode w = .ok i ∧ (issueCommand w s).infl = some w := by
  rcases issueCommand_cases w s with ⟨v, -, heq⟩ | ⟨e, -, -, heq⟩ | ⟨i, hn, hi, heq⟩
  · simp [heq, h0] at h1
  · simp [heq, h0] at h1
  · exact ⟨i, hn, hi, by simp [heq]⟩

/-- A CMD write leaves a command in flight there. -/
theorem issueCommand_keeps_inFlight (w : Word) {v : Word} {s : State} (h : s.infl = some v) :
    (issueCommand w s).infl = some v := by
  rw [issueCommand_inFlight h, raiseCmdError_infl, h]

/-- A command that raises OVF is an add, a sub or a shiftl. -/
theorem exec_raises_ovf {i : Instr} {s t : State} (he : exec i s = .next t)
    (h0 : s.status.ovf = false) (h1 : t.status.ovf = true) :
    ∃ d a n, (∃ b, i = .add d a b n ∨ i = .sub d a b n) ∨ i = .shiftl d a n := by
  have kept (d a : Slot) (n : Nat) : ¬ (i = .reduce d a n ∨ i = .caddq d a n) := fun hi => by
    simp [exec_ovf_of_reduce_or_caddq hi he, h0] at h1
  cases i with
  | add d a b n => exact ⟨d, a, n, .inl ⟨b, .inl rfl⟩⟩
  | sub d a b n => exact ⟨d, a, n, .inl ⟨b, .inr rfl⟩⟩
  | reduce d a n => exact absurd (.inl rfl) (kept d a n)
  | caddq d a n => exact absurd (.inr rfl) (kept d a n)
  | shiftl d a n => exact ⟨d, a, n, .inr rfl⟩

/-- A command changes no bit of STATUS but OVF. -/
theorem exec_status {i : Instr} {s t : State} (h : exec i s = .next t) :
    ∃ o, t.status = { s.status with ovf := o } :=
  ⟨t.status.ovf, (exec_untouched h).status⟩

/-- The turn a step uses up makes no difference to the results of the command. -/
theorem exec_of_popSched {i : Instr} {s u : State} (h : exec i (popSched s) = .next u) :
    ∃ u', exec i s = .next u' ∧ u.P = u'.P := by
  obtain ⟨rs, -, hex⟩ := exec_commits_congr i s
  rw [hex (popSched s) rfl rfl] at h
  cases h
  exact ⟨_, hex s rfl rfl, by simp⟩

/-! ## The rules -/

/-- What a step does to INFL, STATUS and ERRINFO: nothing, unless it is a reset, a completion, a CTRL
write or a CMD write. -/
theorem step_control_cases {s t : State} (h : step s = .next t) :
    (t.infl = s.infl ∧ t.status = s.status ∧ t.errinfo = s.errinfo) ∨
    (ResetTurn s ∧ t = resetBlock (popSched s)) ∨
    (∃ i u, EngineTurn s ∧ InFlight i s ∧ exec i (popSched s) = .next u ∧ t = retire u) ∨
    (∃ v, WriteNext 0x0008 v s ∧ t = respond .okay (ctrlWrite v (popHost (popSched s)))) ∨
    (∃ w, WriteNext 0x000C w s ∧ t = respond .okay (issueCommand w (popHost (popSched s)))) := by
  cases step_cases h with
  | reset hr => exact .inr (.inl ⟨hr, rfl⟩)
  | idle => exact .inl ⟨rfl, rfl, rfl⟩
  | complete w i u hw hi turn hu => exact .inr (.inr (.inl ⟨i, u, turn, ⟨w, hw, hi⟩, hu, rfl⟩))
  | poll => exact .inl (by simp)
  | answer => exact .inl ⟨rfl, rfl, rfl⟩
  | ctrl turn x ops v hx ok op at_ =>
    exact .inr (.inr (.inr (.inl ⟨v, ⟨turn, x, ops, hx, ok, op, at_⟩, rfl⟩)))
  | cmd turn x ops w hx ok op at_ =>
    exact .inr (.inr (.inr (.inr ⟨w, ⟨turn, x, ops, hx, ok, op, at_⟩, rfl⟩)))
  | window => exact .inl ⟨rfl, rfl, rfl⟩

/-- A bit that keeps its value neither rises nor falls. -/
theorem no_edge_of_eq {a b : Bool} {p q : Prop} (h : b = a) :
    (a = false → b = true → p) ∧ (a = true → b = false → q) := by
  subst h
  exact ⟨fun h0 h1 => by simp [h0] at h1, fun h1 h0 => by simp [h1] at h0⟩

/-- Settles O51: only a reset and a CTRL write with CLR = 1 touch a recorded error. -/
theorem firstErrorIsKept : Obligations.FirstErrorIsKept := by
  intro s t hstep herr
  rcases step_control_cases hstep with ⟨-, hstatus, hinfo⟩ | ⟨hr, -⟩ | ⟨i, u, -, -, hu, rfl⟩ |
    ⟨v, hv, rfl⟩ | ⟨w, -, rfl⟩
  · exact .inl (by simp [hstatus, hinfo, herr])
  · exact .inr (.inl hr)
  · obtain ⟨o, ho⟩ := exec_status hu
    exact .inl (by simp [ho, (exec_untouched hu).errinfo, herr])
  · by_cases hclr : bits v 1 1 = 1
    · exact .inr (.inr ⟨v, hv, hclr⟩)
    · exact .inl (by simp [hclr, herr])
  · exact .inl (issueCommand_keeps_error w (s := popHost (popSched s)) herr)

/-- Settles O52: a completion only adds to OVF, and a CTRL write only clears it. -/
theorem ovfSetAndCleared : Obligations.OvfSetAndCleared := by
  intro s t hstep
  rcases step_control_cases hstep with ⟨-, hstatus, -⟩ | ⟨hr, rfl⟩ | ⟨i, u, turn, hf, hu, rfl⟩ |
    ⟨v, hv, rfl⟩ | ⟨w, -, rfl⟩
  · exact no_edge_of_eq (by rw [hstatus])
  · exact ⟨fun _ h1 => by simp [Status.reset] at h1, fun _ _ => .inl hr⟩
  · refine ⟨fun h0 h1 => ?_, fun h0 h1 => ?_⟩
    · obtain ⟨d, a, n, hop⟩ := exec_raises_ovf hu h0 h1
      exact ⟨i, d, a, n, turn, hf, rfl, rfl, hop⟩
    · have hsticky : u.status.ovf = true := (exec_untouched hu).sticky h0
      simp [hsticky] at h1
  · by_cases hclr : bits v 1 1 = 1
    · exact ⟨fun _ h1 => by simp [hclr] at h1, fun _ _ => .inr ⟨v, hv, hclr⟩⟩
    · exact no_edge_of_eq (by simp [hclr])
  · exact no_edge_of_eq (by simp)

/-- Settles O53: BUSY follows `accept`, `retire` and `resetBlock`; a CTRL write leaves it alone. -/
theorem busySpan : Obligations.BusySpan := by
  intro s t hstep
  rcases step_control_cases hstep with ⟨-, hstatus, -⟩ | ⟨hr, rfl⟩ | ⟨i, u, turn, hf, hu, rfl⟩ |
    ⟨v, -, rfl⟩ | ⟨w, hw, rfl⟩
  · exact no_edge_of_eq (by rw [hstatus])
  · exact ⟨fun _ h1 => by simp [Status.reset] at h1, fun _ _ => .inl hr⟩
  · obtain ⟨u', hu', hP⟩ := exec_of_popSched hu
    exact ⟨fun _ h1 => by simp at h1, fun _ _ => .inr ⟨i, u', turn, hf, hu', hP, rfl⟩⟩
  · exact no_edge_of_eq (by rw [respond_status, ctrlWrite_status]; split <;> rfl)
  · refine ⟨fun h0 h1 => ?_, fun h0 h1 => ?_⟩
    · obtain ⟨i, hn, hi, hinfl⟩ :=
        issueCommand_raises_busy (s := popHost (popSched s)) h0 (by simpa using h1)
      exact ⟨w, i, hw, hn, hi, hinfl⟩
    · simp [issueCommand_keeps_busy w (s := popHost (popSched s)) h0] at h1

/-- Settles O54: DONE rises in `retire` and in the rejection by an idle block, and falls in `accept`, a
CTRL write with CLR = 1 and `resetBlock`. -/
theorem doneSpan : Obligations.DoneSpan := by
  intro s t hstep
  rcases step_control_cases hstep with ⟨-, hstatus, -⟩ | ⟨hr, rfl⟩ | ⟨i, u, turn, hf, hu, rfl⟩ |
    ⟨v, hv, rfl⟩ | ⟨w, hw, rfl⟩
  · exact no_edge_of_eq (by rw [hstatus])
  · exact ⟨fun _ h1 => by simp [Status.reset] at h1, fun _ _ => .inl hr⟩
  · obtain ⟨u', hu', hP⟩ := exec_of_popSched hu
    exact ⟨fun _ _ => .inl ⟨i, u', turn, hf, hu', hP, rfl⟩, fun _ h1 => by simp at h1⟩
  · by_cases hclr : bits v 1 1 = 1
    · exact ⟨fun _ h1 => by simp [hclr] at h1, fun _ _ => .inr (.inl ⟨v, hv, hclr⟩)⟩
    · exact no_edge_of_eq (by simp [hclr])
  · refine ⟨fun h0 h1 => ?_, fun h0 h1 => ?_⟩
    · obtain ⟨e, hn, he, herr⟩ :=
        issueCommand_raises_done (s := popHost (popSched s)) h0 (by simpa using h1)
      exact .inr ⟨w, e, hw, hn, he, herr⟩
    · obtain ⟨i, hn, hi, hinfl⟩ :=
        issueCommand_lowers_done (s := popHost (popSched s)) h0 (by simpa using h1)
      exact .inr (.inr ⟨w, i, hw, hn, hi, hinfl⟩)

/-- Settles O55: a CMD write is the only step that could put another word in flight, and an occupied
block drops its word. -/
theorem commandInFlightIsNotReplaced : Obligations.CommandInFlightIsNotReplaced := by
  intro s t w hstep hw
  rcases step_control_cases hstep with ⟨hinfl, -, -⟩ | ⟨-, rfl⟩ | ⟨i, u, -, -, -, rfl⟩ |
    ⟨v, -, rfl⟩ | ⟨v, -, rfl⟩
  · exact .inl (hinfl.trans hw)
  · exact .inr rfl
  · exact .inr rfl
  · exact .inl (by simp [hw])
  · exact .inl (issueCommand_keeps_inFlight v (s := popHost (popSched s)) hw)

/-- Settles O56: of the cases of a step only a reset, a completion and a window write touch the store. -/
theorem coefficientsChangeOnlySo : Obligations.CoefficientsChangeOnlySo := by
  intro s t x hstep hx
  cases step_cases hstep with
  | reset h => exact .inl h
  | complete w i u hw hi turn hu =>
    refine .inr (.inr ⟨i, turn, ⟨w, hw, hi⟩, rfl, ?_⟩)
    by_contra hout
    refine hx ((exec_untouched hu).bytes x ?_)
    simp only [slotAddr, coeffAddr]
    omega
  | window turn y ops w k i hy ok op hk hi at_ free =>
    refine .inr (.inl ⟨free, y.addr, w, ⟨turn, y, ops, hy, ok, op, rfl⟩, ?_⟩)
    have hin : 0x8000 ≤ y.addr.toNat := by
      rw [at_, coeffAddr]; omega
    by_contra hout
    refine hx (byte?_storeWords_outside ?_)
    rw [List.length_singleton]
    omega
  | idle | answer => exact absurd rfl hx
  | poll | ctrl | cmd => exact absurd (by simp) hx

end Sys2Proof.Machine
end

section
/-! PROOFS. Register reads, CTRL, the fields of STATUS and the state after reset (10_state.md R27 to R29,
R35, R38; 20_memory.md R56, R58). -/

namespace Sys2Proof.Machine

/-! ## Single bits -/

/-- Bit `k` of a word, as a field of one bit and as a Boolean. -/
theorem bits_beq_one (w : Word) (k : Nat) : (bits w k k == 1) = w.getLsbD k := by
  rw [bits, show k + 1 - k = 1 by omega, Nat.pow_one, ← BitVec.testBit_toNat,
    Nat.testBit_eq_decide_div_mod_eq, beq_eq_decide]

/-- Bit `k` of a word, from its value. -/
theorem getLsbD_eq_iff {w : Word} {k : Nat} {b : Bool} :
    w.getLsbD k = b ↔ w.toNat / 2 ^ k % 2 = b.toNat := by
  rw [← BitVec.testBit_toNat, Nat.testBit_eq_decide_div_mod_eq]
  have := Nat.mod_lt (w.toNat / 2 ^ k) (show 0 < 2 by decide)
  cases b <;> simp

/-! ## CTRL -/

/-- A CTRL write with CLR = 1 sets IE and clears DONE, OVF and the recorded error. -/
theorem ctrlWrite_of_clr {v : Word} {s : State} (h : v.getLsbD 1 = true) :
    ctrlWrite v s = { s with
      ie := v.getLsbD 0
      status := { s.status with done := false, err := false, errcode := 0, ovf := false }
      errinfo := 0 } := by
  simp only [ctrlWrite, bits_beq_one, h, if_true, clearErrors]

/-- A CTRL write with CLR = 0 sets IE alone. -/
theorem ctrlWrite_of_not_clr {v : Word} {s : State} (h : v.getLsbD 1 = false) :
    ctrlWrite v s = { s with ie := v.getLsbD 0 } := by
  simp only [ctrlWrite, bits_beq_one, h, Bool.false_eq_true, if_false]

/-- What CTRL reads as: IE, zero-extended. -/
theorem ctrlWord_eq (s : State) : s.ctrlWord = if s.ie = true then 1 else 0 := by
  rw [State.ctrlWord]
  cases s.ie <;> rfl

/-- Settles O33: bits 0 and 1 of the written word are its fields IE and CLR. -/
theorem ctrlWriteAndRead : Obligations.CtrlWriteAndRead := by
  refine ⟨rfl, fun s rest ops hs => ⟨fun v ho => ⟨fun hclr => ?_, fun hclr => ?_⟩, fun ho => ?_⟩⟩
  · rw [step_writes_ctrl hs ho, ctrlWrite_of_clr hclr]
    rfl
  · rw [step_writes_ctrl hs ho, ctrlWrite_of_not_clr hclr]
    rfl
  · rw [step_reads_register hs ho (by decide) (by decide), ← ctrlWord_eq]
    rfl

/-! ## Register reads -/

/-- The word each register offset reads as, and nothing else of the block changes. -/
theorem memRead_register {a : Addr} {w : Word} {s : State}
    (h : (a, w) ∈ [((0x0000 : Addr), (0x007FE001 : Word)), (0x0004, s.status.word),
      (0x0008, BitVec.ofNat 32 s.ie.toNat), (0x000C, 0), (0x0010, s.errinfo), (0x0014, 0x0D200100)]) :
    a.toNat < 0x8000 ∧ a.toNat % 4 = 0 ∧ memRead a s = .next (respond (.data w) s) := by
  simp only [List.mem_cons, Prod.mk.injEq, List.not_mem_nil, or_false] at h
  rcases h with ⟨rfl, rfl⟩ | ⟨rfl, rfl⟩ | ⟨rfl, rfl⟩ | ⟨rfl, rfl⟩ | ⟨rfl, rfl⟩ | ⟨rfl, rfl⟩ <;>
    exact ⟨by decide, by decide, rfl⟩

/-- Settles O35: a register transaction is never held, so each read is `memRead` of its offset. -/
theorem registerReads : Obligations.RegisterReads := by
  intro s a w rest ops ha hs ho
  obtain ⟨hreg, h4, hread⟩ :=
    memRead_register (s := { s with host := ops, sched := rest }) ha
  rw [step_reads_register hs ho hreg h4, hread]
  rfl

/-! ## STATUS -/

/-- STATUS as a number: ERRCODE above the four flags. -/
theorem status_word_toNat (t : Status) :
    t.word.toNat = t.errcode.toNat * 16 + t.ovf.toNat * 8 + t.err.toNat * 4 + t.done.toNat * 2
      + t.busy.toNat := by
  have hcode := t.errcode.isLt
  have hovf := t.ovf.toNat_lt
  have herr := t.err.toNat_lt
  have hdone := t.done.toNat_lt
  have hbusy := t.busy.toNat_lt
  simp only [Status.word, BitVec.toNat_ofNat]
  omega

/-- Settles O36: every field fits its place, so the quotients of STATUS as a number are its fields. -/
theorem statusFieldsAtTheirBits : Obligations.StatusFieldsAtTheirBits := by
  intro t
  have hcode := t.errcode.isLt
  have hovf := t.ovf.toNat_lt
  have herr := t.err.toNat_lt
  have hdone := t.done.toNat_lt
  have hbusy := t.busy.toNat_lt
  simp only [getLsbD_eq_iff, status_word_toNat]
  refine ⟨?_, ?_, ?_, ?_, ?_, ?_⟩ <;> omega

/-! ## Reset -/

/-- Settles O47: an empty store has no written word, and the registers are at 0 by definition. -/
theorem stateAfterReset : Obligations.StateAfterReset :=
  ⟨fun k i => by rw [State.written, State.reset, word?_nil]; rfl, rfl, rfl, rfl, rfl, rfl, rfl, rfl⟩

end Sys2Proof.Machine
end

section
/-! PROOFS. Window transactions (20_memory.md R52, R56, R59): the hold while a command is in flight, and
which reads are of a coefficient that nothing has written (93_implementation_defined.md U1). -/

namespace Sys2Proof.Machine

/-- An aligned offset of the window is the offset of one coefficient. -/
theorem region_of_window {a : Addr} (hw : 0x8000 ≤ a.toNat) (h4 : a.toNat % 4 = 0) :
    ∃ k i, k < 32 ∧ i < 256 ∧ region a = .window k i ∧ coeffAddr k i = a.toNat := by
  have ha := a.isLt
  refine ⟨a.toNat / 1024 % 32, a.toNat / 4 % 256, by omega, by omega, ?_,
    by simp only [coeffAddr]; omega⟩
  rcases region_cases a with ⟨rfl, -⟩ | ⟨rfl, -⟩ | ⟨rfl, -⟩ | ⟨rfl, -⟩ | ⟨rfl, -⟩ | ⟨rfl, -⟩ |
    ⟨-, h⟩ | ⟨h, -⟩
  case inr.inr.inr.inr.inr.inr.inl => exact h
  case inr.inr.inr.inr.inr.inr.inr => omega
  all_goals simp at hw

/-- A window read of an idle block is the host's breach of R193 exactly if the coefficient has not been
written. -/
theorem readsUnwritten_windowRead {s : State} {t : Txn} {k i : Nat} {rest : List Agent}
    {ops : List HostOp} (hs : s.sched = .host :: rest) (ho : s.host = .txn t :: ops)
    (hf : s.infl = none) (hok : t.ok = true) (hop : t.op = .read)
    (hr : region t.addr = .window k i) : ReadsUnwritten s ↔ s.written k i = false := by
  constructor
  · rintro (⟨-, j, ⟨w, hw, -⟩, -⟩ | ⟨-, -, t', ops', k', i', ho', -, -, hr', hw⟩)
    · simp [hf] at hw
    · rw [ho, List.cons.injEq, HostOp.txn.injEq] at ho'
      obtain ⟨rfl, -⟩ := ho'
      rw [hr, Region.window.injEq] at hr'
      obtain ⟨rfl, rfl⟩ := hr'
      exact hw
  · exact fun hw => .inr ⟨.inl (by simp [hs]), hf, t, ops, k, i, ho, hok, hop, hr, hw⟩

/-- Settles O40: an idle block holds nothing, so the read is of the stored word. -/
theorem windowRead : Obligations.WindowRead := by
  intro s k i rest ops hk hi hf hs ho
  constructor
  · rw [step_reads_coeff hk hi hf hs ho, State.coeff, BitVec.ofInt_toInt]
    rfl
  · refine readsUnwritten_windowRead hs ho hf ?_ rfl (region_coeffAddr hk hi)
    rw [fullWord_ok, decide_eq_true_eq]
    exact (toNat_coeffAddr hk hi).symm ▸ coeffAddr_aligned k i

/-- A window transaction is held while a command is in flight. -/
theorem held_of_inFlight {t : Txn} {s : State} {w : Word} (hf : s.infl = some w)
    (hok : t.ok = true) (hw : 0x8000 ≤ t.addr.toNat) : held t s = true := by
  simp [held, hf, hok, Txn.inWindow, hw]

/-- A step of the host's turn whose transaction is held uses up the turn alone. -/
theorem step_of_held {s : State} {t : Txn} {rest : List Agent} {ops : List HostOp}
    (hs : s.sched = .host :: rest) (ho : s.host = .txn t :: ops) (hh : held t s = true) :
    step s = .next (popSched s) := by
  have hp : held t (popSched s) = true := by simpa [held] using hh
  rw [step_host hs, hostTurn_txn (ops := ops) (by simpa using ho), hp, if_pos rfl]

/-- A window transaction on an idle block: a read answers the coefficient, a write stores it. -/
theorem perform_window {t : Txn} {k i : Nat} (hok : t.ok = true)
    (hr : region t.addr = .window k i) (s : State) :
    (t.op = .read → perform t s
      = .next (respond (.data (s.P.wordOr s.contents (coeffAddr k i))) s)) ∧
    (∀ v, t.op = .write v → perform t s = .next (respond .okay (writeCoeff k i v s))) := by
  constructor
  · intro hop
    simp only [perform, hok, if_true, hop, memRead, hr]
  · intro v hop
    simp only [perform, hok, if_true, hop, memWrite, hr]

/-- The word a host write leaves in the store. -/
theorem word?_writeCoeff (k i : Nat) (w : Word) (s : State) :
    (writeCoeff k i w s).P.word? (coeffAddr k i) = some w :=
  word?_storeWords_inside (j := 0) (by simp)

/-- Settles O43: after the reset the same transaction finds an idle block with an empty store. -/
theorem windowTransactionHeld : Obligations.WindowTransactionHeld := by
  intro s t w rest ops hf ho h4 hwidth hlanes hw
  have hok : t.ok = true := Txn.ok_iff.mpr ⟨h4, hwidth, hlanes⟩
  refine ⟨fun hs => ?_, fun hs => ?_⟩
  · rw [step_of_held hs ho (held_of_inFlight hf hok hw), popSched, hs, List.tail_cons]
  · obtain ⟨k, i, -, -, hr, hadr⟩ := region_of_window hw h4
    have hidle : (resetBlock (popSched s)).infl = none := rfl
    have hs' : (resetBlock (popSched s)).sched = .host :: rest := by simp [hs]
    have hstep := step_performs hs' ho (held_idle hidle)
    obtain ⟨hread, hwrite⟩ := perform_window hok hr
      { resetBlock (popSched s) with host := ops, sched := rest }
    refine ⟨_, step_reset hs, rfl, rfl, held_idle hidle, fun hop => ⟨?_, ?_⟩, fun v hop => ?_⟩
    · exact (readsUnwritten_windowRead hs' ho hidle hok hop hr).mpr rfl
    · exact ⟨_, _, hstep.trans (hread hop), rfl, rfl⟩
    · exact ⟨_, hstep.trans (hwrite v hop), rfl, hadr ▸ word?_writeCoeff k i v _⟩

end Sys2Proof.Machine
end

section
/-! PROOFS. The free contents of the unwritten coefficients (10_state.md R24, 92_eei_decisions.md D29; log
2): each operation of a step commutes with a change of the epoch, unless it reads an unwritten
coefficient. -/

namespace Sys2Proof.Machine

/-- The state with other free contents in its unwritten coefficients (log 2). -/
def withEpoch (e : Nat) (s : State) : State := { s with epoch := e }

theorem commitVec_withEpoch (d : Slot) (rs : List (Int × Bool)) (e : Nat) (s : State) :
    commitVec d rs (withEpoch e s) = withEpoch e (commitVec d rs s) := by
  unfold commitVec flagOvf
  split <;> rfl

theorem raiseCmdError_withEpoch (c : CmdError) (w : Word) (e : Nat) (s : State) :
    raiseCmdError c w (withEpoch e s) = withEpoch e (raiseCmdError c w s) := by
  cases herr : s.status.err <;> cases c <;> simp [raiseCmdError, withEpoch, herr]

theorem issueCommand_withEpoch (w : Word) (e : Nat) (s : State) :
    issueCommand w (withEpoch e s) = withEpoch e (issueCommand w s) := by
  rcases issueCommand_cases w s with ⟨v, hn, heq⟩ | ⟨c, hn, hc, heq⟩ | ⟨i, hn, hi, heq⟩ <;> rw [heq]
  · rw [issueCommand_inFlight (s := withEpoch e s) hn, raiseCmdError_withEpoch]
  · rw [issueCommand_rejected (s := withEpoch e s) hn hc, raiseCmdError_withEpoch]
  · exact issueCommand_accepted (s := withEpoch e s) hn hi

theorem ctrlWrite_withEpoch (v : Word) (e : Nat) (s : State) :
    ctrlWrite v (withEpoch e s) = withEpoch e (ctrlWrite v s) := by
  unfold ctrlWrite
  split <;> rfl

theorem waitTurn_withEpoch (e : Nat) (s : State) :
    waitTurn (withEpoch e s) = withEpoch e (waitTurn s) := by
  cases hb : s.status.busy <;> simp [waitTurn, withEpoch, respond, popHost, hb]

/-- A read does not depend on the free contents, unless it is a window read of a coefficient that nothing
has written. -/
theorem memRead_withEpoch {a : Addr} {s : State} (e : Nat)
    (h : ∀ k i, region a = .window k i → s.written k i = true) :
    memRead a (withEpoch e s) = mapNext (withEpoch e) (memRead a s) := by
  unfold memRead
  cases hr : region a with
  | window k i =>
    obtain ⟨w, hw⟩ := Option.isSome_iff_exists.mp (h k i hr)
    simp only [withEpoch, wordOr_of_word? hw, mapNext, respond]
  | constq | status | ctrl | cmd | errinfo | info | unmapped => rfl

/-- No write depends on the free contents. -/
theorem memWrite_withEpoch (a : Addr) (w : Word) (e : Nat) (s : State) :
    memWrite a w (withEpoch e s) = mapNext (withEpoch e) (memWrite a w s) := by
  unfold memWrite
  cases region a with
  | ctrl => rw [ctrlWrite_withEpoch]; rfl
  | cmd => rw [issueCommand_withEpoch]; rfl
  | constq | status | errinfo | info | window | unmapped => rfl

/-- An idle block alone performs a window transaction. -/
theorem infl_none_of_not_held {t : Txn} {s : State} {k i : Nat} (hok : t.ok = true)
    (hr : region t.addr = .window k i) (hh : held t s = false) : s.infl = none := by
  cases hf : s.infl with
  | none => rfl
  | some w => simp [held_of_inFlight hf hok (region_window hr).1] at hh

theorem perform_withEpoch {t : Txn} {s : State} (e : Nat)
    (h : ∀ k i, t.ok = true → t.op = .read → region t.addr = .window k i → s.written k i = true) :
    perform t (withEpoch e s) = mapNext (withEpoch e) (perform t s) := by
  unfold perform
  cases hok : t.ok with
  | false => rfl
  | true =>
    cases hop : t.op with
    | read => exact memRead_withEpoch e fun k i hr => h k i hok hop hr
    | write w => exact memWrite_withEpoch t.addr w e s

/-- The host's turn does not depend on the free contents, unless it reads one. -/
theorem hostTurn_withEpoch {s : State} (e : Nat)
    (h : ∀ t ops k i, s.host = .txn t :: ops → t.ok = true → t.op = .read → s.infl = none →
      region t.addr = .window k i → s.written k i = true) :
    hostTurn (withEpoch e s) = mapNext (withEpoch e) (hostTurn s) := by
  rcases ho : s.host with _ | ⟨t | _, ops⟩
  · simp only [hostTurn, ho, show (withEpoch e s).host = [] from ho, mapNext]
  · rw [hostTurn_txn ho, hostTurn_txn (s := withEpoch e s) ho,
      show held t (withEpoch e s) = held t s from rfl]
    cases hh : held t s with
    | true => rfl
    | false =>
      exact perform_withEpoch (s := popHost s) e fun k i hok hop hr =>
        h t ops k i ho hok hop (infl_none_of_not_held hok hr hh) hr
  · simp only [hostTurn, ho, show (withEpoch e s).host = .wait :: ops from ho, mapNext,
      waitTurn_withEpoch]

/-- A command whose sources have been written does not depend on the free contents. -/
theorem exec_withEpoch {i : Instr} {s : State} (e : Nat) (hr : Ready i s) :
    exec i (withEpoch e s) = mapNext (withEpoch e) (exec i s) := by
  obtain ⟨rs, -, hex⟩ := exec_commits i s
  rw [hex s fun _ _ _ _ _ _ => rfl, hex (withEpoch e s) (sameSources_of_ready rfl hr),
    commitVec_withEpoch]
  rfl

/-- The engine's turn does not depend on the free contents, unless it reads one. -/
theorem engineTurn_withEpoch {s : State} (e : Nat) (h : ∀ i, InFlight i s → Ready i s) :
    engineTurn (withEpoch e s) = mapNext (withEpoch e) (engineTurn s) := by
  cases hf : s.infl with
  | none => simp only [engineTurn, hf, show (withEpoch e s).infl = none from hf, mapNext]
  | some w =>
    simp only [engineTurn, hf, show (withEpoch e s).infl = some w from hf]
    cases hd : decode w with
    | error c => rfl
    | ok i =>
      dsimp only
      rw [exec_withEpoch e (h i ⟨w, hf, hd⟩)]
      cases exec i s <;> rfl

/-- Where the engine's next step reads no unwritten coefficient, the command in flight is ready. -/
theorem ready_of_not_readsUnwritten {s : State} (h : ¬ ReadsUnwritten s) (turn : EngineTurn s)
    {i : Instr} (hf : InFlight i s) : Ready i s :=
  not_not.mp fun hr => h (.inl ⟨turn, i, hf, hr⟩)

/-- Where the host's next step reads no unwritten coefficient, its window read is of a written one. -/
theorem written_of_not_readsUnwritten {s : State} (h : ¬ ReadsUnwritten s) (turn : HostTurn s)
    {t : Txn} {ops : List HostOp} {k i : Nat} (ho : s.host = .txn t :: ops) (hok : t.ok = true)
    (hop : t.op = .read) (hf : s.infl = none) (hr : region t.addr = .window k i) :
    s.written k i = true := by
  by_contra hw
  exact h (.inr ⟨turn, hf, t, ops, k, i, ho, hok, hop, hr, by simpa using hw⟩)

/-- A step that reads no unwritten coefficient has the same outcome from any other free contents, up to
the epoch, which a reset advances. -/
theorem step_withEpoch {s : State} (e : Nat) (h : ¬ ReadsUnwritten s) :
    ∃ e', step (withEpoch e s) = mapNext (withEpoch e') (step s) := by
  rcases hs : s.sched with _ | ⟨g, rest⟩
  · refine ⟨e, ?_⟩
    rw [step_rest hs, step_rest (s := withEpoch e s) hs, restTurn, restTurn]
    cases hf : s.infl with
    | none =>
      have turn : HostTurn s := .inr ⟨hs, hf⟩
      simpa [show (withEpoch e s).infl = none from hf] using hostTurn_withEpoch e
        fun t ops k i => written_of_not_readsUnwritten h turn
    | some w =>
      have turn : EngineTurn s := .inr ⟨hs, by simp [hf]⟩
      simpa [show (withEpoch e s).infl = some w from hf] using engineTurn_withEpoch e
        fun i => ready_of_not_readsUnwritten h turn
  · cases g with
    | host =>
      have turn : HostTurn s := .inl (by simp [hs])
      refine ⟨e, ?_⟩
      rw [step_host hs, step_host (s := withEpoch e s) hs]
      exact hostTurn_withEpoch (s := popSched s) e
        fun t ops k i => written_of_not_readsUnwritten h turn
    | engine =>
      have turn : EngineTurn s := .inl (by simp [hs])
      refine ⟨e, ?_⟩
      rw [step_engine hs, step_engine (s := withEpoch e s) hs]
      exact engineTurn_withEpoch (s := popSched s) e fun i => ready_of_not_readsUnwritten h turn
    | reset =>
      refine ⟨e + 1, ?_⟩
      rw [step_reset hs, step_reset (s := withEpoch e s) hs]
      rfl

/-- Settles O60: whether a step reads an unwritten coefficient does not depend on the epoch, and where it
reads none, neither does its outcome. -/
theorem strictStepsReadNoFreeValue : Obligations.StrictStepsReadNoFreeValue := by
  rintro s t e ⟨hstrict, hstep⟩
  obtain ⟨e', he'⟩ := step_withEpoch e hstrict
  rw [hstep] at he'
  exact ⟨e', hstrict, he'⟩

end Sys2Proof.Machine
end

section
/-! PROOFS. Window offsets, window writes and their reads (20_memory.md R52, R55, R57, R61), writes to
read-only registers (R58), and reset (70_reset_and_hazards.md R190). -/

namespace Sys2Proof.Machine

/-- Settles O38: the region of an aligned window offset is of the coefficient at that offset, and slot and
index are the quotients of the offset. -/
theorem windowOffsets : Obligations.WindowOffsets := by
  refine ⟨fun k i hk hi => region_coeffAddr hk hi, fun a hw h4 => ?_⟩
  obtain ⟨k, i, hk, hi, hr, hadr⟩ := region_of_window hw h4
  rw [coeffAddr] at hadr
  have hslot : a.toNat / 2 ^ 10 % 2 ^ 5 = k := by omega
  have hindex : a.toNat / 2 ^ 2 % 2 ^ 8 = i := by omega
  rw [hslot, hindex]
  exact ⟨hr, hadr.symm⟩

/-- Settles O39: the step is `writeCoeff`, a store of one word. -/
theorem windowWrite : Obligations.WindowWrite := by
  intro s k i w rest ops hk hi hf hs ho
  refine ⟨(writeCoeff k i w s).P, step_writes_coeff hk hi hf hs ho, fun l hl => ?_, fun x hx => ?_,
    coeff_writeCoeff_same s k i w, ?_⟩
  · exact byte?_storeWords_inside (j := 0) (by simp) hl
  · exact byte?_storeWords_outside hx
  · exact Option.isSome_of_eq_some (word?_writeCoeff k i w s)

/-- Settles O41: the first turn leaves an idle block whose coefficient is the written word. -/
theorem windowReadAfterWrite : Obligations.WindowReadAfterWrite := by
  intro s k i w rest ops hk hi hf hs ho
  refine ⟨_, (run_succ (step_writes_coeff hk hi hf hs ho)).trans
    (run_succ (step_reads_coeff (rest := rest) (ops := ops) hk hi hf rfl rfl)), ?_⟩
  rw [respond_resp, respond_P, wordOr_of_word? (word?_writeCoeff k i w _)]

/-- A write to a read-only register is answered and ignored. -/
theorem memWrite_readOnly {a : Addr} (h : a ∈ [(0x0000 : Addr), 0x0004, 0x0010, 0x0014]) (w : Word)
    (s : State) :
    a.toNat < 0x8000 ∧ a.toNat % 4 = 0 ∧ memWrite a w s = .next (respond .okay s) := by
  simp only [List.mem_cons, List.not_mem_nil, or_false] at h
  rcases h with rfl | rfl | rfl | rfl <;> exact ⟨by decide, by decide, rfl⟩

/-- Settles O37: a register transaction is never held, so each write is `memWrite` of its offset. -/
theorem readOnlyWritesIgnored : Obligations.ReadOnlyWritesIgnored := by
  intro s a w rest ops ha hs ho
  obtain ⟨hreg, h4, hwrite⟩ := memWrite_readOnly ha w { s with host := ops, sched := rest }
  rw [step_writes_register hs ho hreg h4, hwrite]
  rfl

/-- Settles O46: reset leaves an idle block with an empty store, its registers at 0 and the
host's items. -/
theorem resetStep : Obligations.ResetStep := by
  intro s rest hs
  exact ⟨_, step_reset hs, rfl, rfl, rfl, rfl, fun _ _ => rfl, fun _ => rfl, rfl,
    fun _ => held_idle rfl, rfl, by simp [hs]⟩

end Sys2Proof.Machine
end

section
/-! PROOFS. Bus errors (20_memory.md R53, R54): which transactions raise one, and the run that goes on
after it (log 5). -/

namespace Sys2Proof.Machine

/-- A supported transaction at a mapped offset is answered. -/
theorem perform_next {t : Txn} (h : t.ok = true ∧ region t.addr ≠ .unmapped) (s : State) :
    ∃ u, perform t s = .next u := by
  obtain ⟨hok, hr⟩ := h
  cases hreg : region t.addr with
  | unmapped => exact absurd hreg hr
  | constq | status | ctrl | cmd | errinfo | info | window =>
    cases hop : t.op <;> simp [perform, hok, hop, memRead, memWrite, hreg]

/-- Any other transaction is a bus error of its offset. -/
theorem perform_busError {t : Txn} (h : ¬ (t.ok = true ∧ region t.addr ≠ .unmapped)) (s : State) :
    perform t s = .fault (.busError t.addr) := by
  cases hok : t.ok with
  | false => simp [perform, hok]
  | true =>
    have hr : region t.addr = .unmapped := by simpa [hok] using h
    cases hop : t.op <;> simp [perform, hok, hop, memRead, memWrite, hr]

/-- A transaction that raises a bus error is never held (log 20). -/
theorem held_of_busError {t : Txn} (h : ¬ (t.ok = true ∧ region t.addr ≠ .unmapped)) (s : State) :
    held t s = false := by
  by_contra hh
  obtain ⟨-, hok, hw⟩ : s.infl.isSome = true ∧ t.ok = true ∧ 0x8000 ≤ t.addr.toNat := by
    simpa [held, Txn.inWindow] using hh
  obtain ⟨k, i, -, -, hr, -⟩ := region_of_window hw (Txn.ok_iff.mp hok).1
  exact h ⟨hok, by simp [hr]⟩

/-- The offsets between the registers and the window are unmapped. -/
theorem region_unmapped {a : Addr} (hlo : 0x0018 ≤ a.toNat) (hhi : a.toNat ≤ 0x7FFF) :
    region a = .unmapped := by
  rcases region_cases a with ⟨rfl, -⟩ | ⟨rfl, -⟩ | ⟨rfl, -⟩ | ⟨rfl, -⟩ | ⟨rfl, -⟩ | ⟨rfl, -⟩ |
    ⟨h, -⟩ | ⟨-, h⟩
  case inr.inr.inr.inr.inr.inr.inl => omega
  case inr.inr.inr.inr.inr.inr.inr => exact h
  all_goals simp at hlo

/-- Settles O42: such a transaction is not held, so it is performed, and the error uses it up. -/
theorem busErrors : Obligations.BusErrors := by
  intro s t rest ops hs ho hbad
  have hbus : ¬ (t.ok = true ∧ region t.addr ≠ .unmapped) := by
    rintro ⟨hok, hr⟩
    obtain ⟨h4, hwidth, hlanes⟩ := Txn.ok_iff.mp hok
    rcases hbad with h | h | h | ⟨hlo, hhi⟩
    · exact h h4
    · exact h hwidth
    · exact h hlanes
    · exact hr (region_unmapped hlo hhi)
  have hstep : step s = .fault (.busError t.addr) := by
    rw [step_performs hs ho (held_of_busError hbus s), perform_busError hbus]
  refine ⟨hstep, ?_⟩
  simp only [stepThroughBusErrors, hstep, State.afterBusError, respond, popHost, popSched, hs, ho,
    List.tail_cons]

end Sys2Proof.Machine
end

section
/-! PROOFS. The wait for a completion (20_memory.md R59, 60_exceptions.md R166, R195,
70_reset_and_hazards.md R196): no host turn touches the command in flight or a coefficient, so the engine
completes it with the results it would have had at once. -/

namespace Sys2Proof.Machine

/-! ## The host's turns -/

/-- What a host turn keeps while a command is in flight: the word, every coefficient, and of the host's
items all but at most the first. -/
structure KeepsCommand (s t : State) : Prop where
  P : t.P = s.P
  epoch : t.epoch = s.epoch
  infl : t.infl = s.infl
  sched : t.sched = s.sched.tail
  host : t.host <:+ s.host

/-- A host turn that the block answers, or that waits, keeps the command in flight. -/
theorem step_host_keepsCommand {s t : State} {w : Word} {rest : List Agent}
    (hs : s.sched = .host :: rest) (hw : s.infl = some w) (h : step s = .next t) :
    KeepsCommand s t := by
  have htail : s.host.tail <:+ s.host := List.tail_suffix _
  cases step_cases h with
  | reset hr => simp [hs] at hr
  | complete w i u _ _ turn => simp [EngineTurn, hs] at turn
  | window turn x ops v k i _ _ _ _ _ _ free => simp [hw] at free
  | idle => exact ⟨rfl, rfl, rfl, rfl, List.suffix_rfl⟩
  | poll =>
    refine ⟨by simp, by simp, by simp, by simp, ?_⟩
    rw [waitTurn_host]
    split
    · exact List.suffix_rfl
    · exact htail
  | answer => exact ⟨rfl, rfl, rfl, rfl, htail⟩
  | ctrl => exact ⟨by simp, by simp, by simp, by simp, by simpa using htail⟩
  | cmd turn x ops v =>
    have hinfl := issueCommand_keeps_inFlight v (s := popHost (popSched s)) hw
    exact ⟨by simp, by simp, hinfl.trans hw.symm, by simp, by simpa using htail⟩

/-- A bus error keeps the command in flight. -/
theorem afterBusError_keepsCommand (a : Addr) (s : State) : KeepsCommand s (s.afterBusError a) :=
  ⟨rfl, rfl, rfl, rfl, List.tail_suffix _⟩

/-- A host turn has a next state, unless its transaction raises a bus error. -/
theorem hostTurn_next_or_busError (s : State) :
    (∃ t, hostTurn s = .next t) ∨
      ∃ t ops, s.host = .txn t :: ops ∧ ¬ (t.ok = true ∧ region t.addr ≠ .unmapped) ∧
        hostTurn s = .fault (.busError t.addr) := by
  rcases ho : s.host with _ | ⟨t | _, ops⟩
  · exact .inl ⟨s, by simp [hostTurn, ho]⟩
  · rw [hostTurn_txn ho]
    cases hh : held t s with
    | true => exact .inl ⟨s, rfl⟩
    | false =>
      by_cases hb : t.ok = true ∧ region t.addr ≠ .unmapped
      · exact .inl (perform_next hb _)
      · exact .inr ⟨t, ops, rfl, hb, perform_busError hb _⟩
  · exact .inl ⟨waitTurn s, by simp [hostTurn, ho]⟩

/-- Where a step has a next state, the run that goes on after bus errors takes it. -/
theorem stepThroughBusErrors_of_next {s t : State} (h : step s = .next t) :
    stepThroughBusErrors s = .next t := by
  simp [stepThroughBusErrors, h]

/-- With a command in flight, a host turn has a next state in the run that goes on after bus errors, which
keeps the command; where the host's items raise none, it is a plain step. -/
theorem stepThroughBusErrors_host {s : State} {w : Word} {rest : List Agent}
    (hs : s.sched = .host :: rest) (hw : s.infl = some w) :
    ∃ t, stepThroughBusErrors s = .next t ∧ KeepsCommand s t ∧
      (Benign s.host → step s = .next t) := by
  rcases hostTurn_next_or_busError (popSched s) with ⟨t, ht⟩ | ⟨x, ops, ho, hbus, ht⟩
  · rw [← step_host hs] at ht
    exact ⟨t, stepThroughBusErrors_of_next ht, step_host_keepsCommand hs hw ht, fun _ => ht⟩
  · rw [← step_host hs] at ht
    refine ⟨s.afterBusError x.addr, by simp only [stepThroughBusErrors, ht],
      afterBusError_keepsCommand _ s, fun hb => absurd (hb x ?_) hbus⟩
    rw [show s.host = .txn x :: ops from ho]
    exact List.mem_cons_self

/-! ## The engine's turn -/

/-- The engine's turn completes the command as `exec` does in any earlier state with the same
coefficients. -/
theorem step_completes_as {s s₀ u : State} {i : Instr} {rest : List Agent}
    (hs : s.sched = .engine :: rest) (hf : InFlight i s) (hP : s.P = s₀.P)
    (he : s.epoch = s₀.epoch) (hu : exec i s₀ = .next u) :
    ∃ t, step s = .next (retire t) ∧ t.P = u.P ∧ t.epoch = u.epoch ∧ t.sched = rest ∧
      t.host = s.host := by
  obtain ⟨w, hw, hi⟩ := hf
  obtain ⟨rs, -, hex⟩ := exec_commits_congr i s₀
  rw [hex s₀ rfl rfl] at hu
  cases hu
  refine ⟨commitVec i.dst rs (popSched s), ?_, by simp [hP], by simp [he], by simp [hs], by simp⟩
  rw [step_completes hs hw hi, hex (popSched s) hP he]
  rfl

/-! ## Runs -/

/-- A run of one more step that goes on after bus errors. -/
theorem runThroughBusErrors_succ {k : Nat} {s t : State} (h : stepThroughBusErrors s = .next t) :
    Host.Core.run coreThroughBusErrors (k + 1) s = Host.Core.run coreThroughBusErrors k t := by
  have h' : coreThroughBusErrors.step s = .next t := h
  simp [Host.Core.run, h']

/-- After `k` host turns the engine completes the command as `exec` does in any earlier state with the
same coefficients; where the host's items raise no bus error, so does the plain run. -/
theorem run_completes_after_hostTurns {s₀ u : State} {i : Instr} {rest : List Agent}
    (hu : exec i s₀ = .next u) (k : Nat) {s : State} (hf : InFlight i s)
    (hs : s.sched = List.replicate k .host ++ .engine :: rest) (hP : s.P = s₀.P)
    (he : s.epoch = s₀.epoch) :
    ∃ t, Host.Core.run coreThroughBusErrors (k + 1) s = .next (retire t) ∧ t.P = u.P ∧
      t.sched = rest ∧
      (Benign s.host → Host.Core.run Sys2Proof.core (k + 1) s = .next (retire t)) := by
  induction k generalizing s with
  | zero =>
    obtain ⟨t, ht, htP, -, hsched, -⟩ := step_completes_as hs hf hP he hu
    exact ⟨t, runThroughBusErrors_succ (stepThroughBusErrors_of_next ht), htP, hsched,
      fun _ => run_succ ht⟩
  | succ k ih =>
    obtain ⟨w, hw, hi⟩ := hf
    rw [List.replicate_succ, List.cons_append] at hs
    obtain ⟨s₁, hthrough, hkeep, hplain⟩ := stepThroughBusErrors_host hs hw
    obtain ⟨t, hrun, htP, hsched, hplains⟩ :=
      ih ⟨w, hkeep.infl.trans hw, hi⟩ (by rw [hkeep.sched, hs, List.tail_cons])
        (hkeep.P.trans hP) (hkeep.epoch.trans he)
    refine ⟨t, (runThroughBusErrors_succ hthrough).trans hrun, htP, hsched, fun hb => ?_⟩
    have hb₁ : Benign s₁.host := fun x hx => hb x (hkeep.host.mem hx)
    exact (run_succ (hplain hb)).trans (hplains hb₁)

/-- Settles O29: the host's turns keep the command and its sources, and the engine's turn retires it. -/
theorem commandCompletesWhateverTheHostDoes : Obligations.CommandCompletesWhateverTheHostDoes := by
  intro k s i rest hf hs
  obtain ⟨rs, -, hu⟩ := exec_eq_commit i s
  obtain ⟨t, hthrough, hP, hsched, hplain⟩ := run_completes_after_hostTurns hu k hf hs rfl rfl
  exact ⟨⟨retire t, _, hthrough, hu, hP, rfl, rfl, rfl, hsched⟩,
    fun hb => ⟨retire t, _, hplain hb, hu, hP, rfl, rfl, rfl, hsched⟩⟩

/-! ## A held read -/

/-- A full-word transaction at the offset of a coefficient is a supported one in the window. -/
theorem fullWord_coeffAddr {k i : Nat} (hk : k < 32) (hi : i < 256) (op : TxnOp) :
    (fullWord op (BitVec.ofNat 16 (coeffAddr k i))).ok = true ∧
      0x8000 ≤ (fullWord op (BitVec.ofNat 16 (coeffAddr k i))).addr.toNat := by
  rw [fullWord_ok, fullWord_addr, toNat_coeffAddr hk hi, decide_eq_true_eq]
  exact ⟨coeffAddr_aligned k i, by rw [coeffAddr]; omega⟩

/-- Settles O44: the held read waits, the engine completes the command, and the read then finds an idle
block with the coefficients `exec` leaves. -/
theorem heldReadSeesTheCompletedValue : Obligations.HeldReadSeesTheCompletedValue := by
  rintro s u c k i v rest ops ⟨w, hw, hc⟩ hu hk hi rfl hs ho
  obtain ⟨hok, hwin⟩ := fullWord_coeffAddr hk hi .read
  have hheld := step_of_held hs ho (held_of_inFlight hw hok hwin)
  obtain ⟨t, hdone, hP, he, hsched, hhost⟩ :=
    step_completes_as (s := popSched s) (s₀ := s)
      (by rw [popSched_sched, hs, List.tail_cons]) ⟨w, hw, hc⟩ rfl rfl hu
  obtain ⟨hread, -⟩ := windowRead (retire t) k i rest ops hk hi rfl hsched (hhost.trans ho)
  rw [coeff_congr (σ := retire t) (τ := u) hP he] at hread
  exact ⟨_, (run_succ hheld).trans ((run_succ hdone).trans (run_succ hread)), rfl, hP⟩

end Sys2Proof.Machine
end

section
/-! PROOFS. Decoding and encoding are inverse (30_encoding.md R80 to R90): the range and overlap tests of
a word are the well-formedness of the command its OP names, and the fields determine the word. -/

namespace Sys2Proof

/-! ## The fields of a command and its word -/

/-- A word whose OP names a command, with its reserved bits 0, has that command's fields. -/
theorem fieldsOf_of_instrOf {w : Word} {i : Instr} (hi : instrOf w = some i)
    (hr : reservedOk w = true) : FieldsOf i w := by
  obtain ⟨h0, h1, h2, hb⟩ := reservedOk_iff.mp hr
  rcases instrOf_eq_some_iff.mp hi with ⟨hop, rfl⟩ | ⟨hop, rfl⟩ | ⟨hop, rfl⟩ | ⟨hop, rfl⟩ | ⟨hop, rfl⟩
  · exact ⟨hop, h0, rfl, h1, rfl, h2, rfl, rfl⟩
  · exact ⟨hop, h0, rfl, h1, rfl, h2, rfl, rfl⟩
  all_goals
    have hsrcB : bits w 28 24 = 0 := by omega
    exact ⟨hop, h0, rfl, h1, rfl, h2, hsrcB, rfl⟩

/-- A word is determined by its fields (R85: one encoding for each command). -/
theorem FieldsOf.word_unique {i : Instr} {v w : Word} (hv : FieldsOf i v) (hw : FieldsOf i w) :
    v = w := by
  apply BitVec.eq_of_toNat_eq
  rw [toNat_eq_fields v, toNat_eq_fields w, hv.op, hv.rsv0, hv.dst, hv.rsv1, hv.srcA, hv.rsv2,
    hv.srcB, hv.count, hw.op, hw.rsv0, hw.dst, hw.rsv1, hw.srcA, hw.rsv2, hw.srcB, hw.count]

/-- The encoded command reads back as the command its OP names, its reserved bits 0. -/
theorem instrOf_encode {i : Instr} (h : i.countOk = true) :
    instrOf (encode i) = some i ∧ reservedOk (encode i) = true := by
  cases i with
  | add d a b n => exact (Laws.FieldsReadBack.add d a b n h).2
  | sub d a b n => exact (Laws.FieldsReadBack.sub d a b n h).2
  | reduce d a n => exact (Laws.FieldsReadBack.reduce d a n h).2
  | caddq d a n => exact (Laws.FieldsReadBack.caddq d a n h).2
  | shiftl d a n => exact (Laws.FieldsReadBack.shiftl d a n h).2

/-! ## The tests of a word and the well-formedness of its command -/

/-- Of a word whose OP names a command, the range and overlap tests pass exactly if the command is
well-formed (R86, R88, R91). -/
theorem wf_iff_of_instrOf {w : Word} {i : Instr} (h : instrOf w = some i) :
    i.wf = true ↔ slotRangeOk w = true ∧ noPartialOverlap w = true := by
  have hn := countField_bounds w
  rw [slotRangeOk_iff, noPartialOverlap_iff]
  rcases instrOf_eq_some_iff.mp h with ⟨hop, rfl⟩ | ⟨hop, rfl⟩ | ⟨hop, rfl⟩ | ⟨hop, rfl⟩ | ⟨hop, rfl⟩
  · rw [wf_binary rfl]; simp [Instr.count, Instr.dst, Instr.srcA, hn, hop, and_assoc]
  · rw [wf_binary rfl]; simp [Instr.count, Instr.dst, Instr.srcA, hn, hop, and_assoc]
  all_goals rw [wf_unary rfl]; simp [Instr.count, Instr.dst, Instr.srcA, hn, hop, and_assoc]

/-- Settles O1: the OP of the word names the command and its reserved bits are 0; the other two tests
are the command's well-formedness. -/
theorem decodeOfEncodeIsIdentity : Obligations.DecodeOfEncodeIsIdentity := by
  intro i hwf
  obtain ⟨hi, hr⟩ := instrOf_encode (countOk_of_wf hwf)
  exact decode_eq_ok_iff.mpr ⟨hi, hr, (wf_iff_of_instrOf hi).mp hwf⟩

/-- Settles O2: the word and the command's encoding have the same fields. -/
theorem encodeOfDecodeIsIdentity : Obligations.EncodeOfDecodeIsIdentity := by
  intro w i h
  obtain ⟨hi, hr, htests⟩ := decode_eq_ok_iff.mp h
  have hwf : i.wf = true := (wf_iff_of_instrOf hi).mpr htests
  exact ⟨hwf, (encode_fields (countOk_of_wf hwf)).word_unique (fieldsOf_of_instrOf hi hr)⟩

/-! ## The word by shifts -/

/-- Fields that fit below each other: the bitwise or of the shifted fields is their sum (log 16). -/
theorem or_of_shifted_fields {n b a d op : Nat} (hb : b < 32) (ha : a < 32) (hd : d < 32)
    (ho : op < 16) :
    n <<< 29 ||| b <<< 24 ||| a <<< 16 ||| d <<< 8 ||| op
      = n * 536870912 + b * 16777216 + a * 65536 + d * 256 + op := by
  have h1 : d <<< 8 ||| op = d * 256 + op := by
    rw [← Nat.shiftLeft_add_eq_or_of_lt (by omega), Nat.shiftLeft_eq]
  have h2 : a <<< 16 ||| (d * 256 + op) = a * 65536 + (d * 256 + op) := by
    rw [← Nat.shiftLeft_add_eq_or_of_lt (by omega), Nat.shiftLeft_eq]
  have h3 : b <<< 24 ||| (a * 65536 + (d * 256 + op))
      = b * 16777216 + (a * 65536 + (d * 256 + op)) := by
    rw [← Nat.shiftLeft_add_eq_or_of_lt (by omega), Nat.shiftLeft_eq]
  rw [Nat.or_assoc, h1, Nat.or_assoc, h2, Nat.or_assoc, h3,
    ← Nat.shiftLeft_add_eq_or_of_lt (by omega), Nat.shiftLeft_eq]
  omega

/-- The word of a well-formed command, by the shifts of R90. -/
theorem encode_by_shifts {i : Instr} (h : i.wf = true) :
    (encode i).toNat = (i.count - 1) <<< 29 ||| i.srcBField <<< 24 ||| i.srcA.val <<< 16
      ||| i.dst.val <<< 8 ||| i.op := by
  have hb : i.srcBField < 32 := by
    cases i <;> simp only [Instr.srcBField, Instr.srcB] <;> omega
  have ho : i.op < 16 := by cases i <;> simp [Instr.op]
  rw [encode_toNat (countOk_of_wf h), or_of_shifted_fields hb i.srcA.isLt i.dst.isLt ho]

/-- Settles O3: R90's formula is `encode_by_shifts`, with SRCB 0 in a unary command. -/
theorem encodedWordByShifts : Obligations.EncodedWordByShifts :=
  ⟨fun _ _ _ _ h => encode_by_shifts h, fun _ _ _ _ h => encode_by_shifts h,
    fun _ _ _ h => encode_by_shifts h, fun _ _ _ h => encode_by_shifts h,
    fun _ _ _ h => encode_by_shifts h, by decide, by decide⟩

/-- Settles O6, by evaluating the decoder on each word. -/
theorem sampleWordsDecode : Obligations.SampleWordsDecode := by
  unfold Obligations.SampleWordsDecode
  decide

end Sys2Proof
end

section
/-! PROOFS. Which error a word gets (30_encoding.md R85 to R89, R94; 60_exceptions.md R164): each answer
of the decoder from its tests, and the table's masks as tests of fields. -/

namespace Sys2Proof

/-! ## The decoder's answers -/

theorem decode_badOpcode {w : Word} (hop : ¬ (1 ≤ bits w 3 0 ∧ bits w 3 0 ≤ 5)) :
    decode w = .error .badOpcode := by
  rw [decode, instrOf_eq_none_iff.mpr hop]

/-- An OP in 1..5 names a command. -/
theorem exists_instrOf {w : Word} (hop : 1 ≤ bits w 3 0 ∧ bits w 3 0 ≤ 5) :
    ∃ i, instrOf w = some i :=
  Option.ne_none_iff_exists'.mp fun h => instrOf_eq_none_iff.mp h hop

theorem decode_rsvdNonzero {w : Word} {i : Instr} (hi : instrOf w = some i)
    (hr : ¬ reservedOk w = true) : decode w = .error .rsvdNonzero := by
  simp [decode, hi, hr]

theorem decode_slotRange {w : Word} {i : Instr} (hi : instrOf w = some i) (hr : reservedOk w = true)
    (hs : ¬ slotRangeOk w = true) : decode w = .error .slotRange := by
  simp [decode, hi, hr, hs]

theorem decode_overlap {w : Word} {i : Instr} (hi : instrOf w = some i) (hr : reservedOk w = true)
    (hs : slotRangeOk w = true) (ho : ¬ noPartialOverlap w = true) :
    decode w = .error .overlap := by
  simp [decode, hi, hr, hs, ho]

/-- A word that names a command and has its reserved bits 0 decodes to it, or fails one of the last two
tests. -/
theorem decode_of_reservedOk {w : Word} {i : Instr} (hi : instrOf w = some i)
    (hr : reservedOk w = true) :
    decode w = .ok i ∨ decode w = .error .slotRange ∨ decode w = .error .overlap := by
  by_cases hs : slotRangeOk w = true
  · by_cases ho : noPartialOverlap w = true
    · exact .inl (decode_eq_ok_iff.mpr ⟨hi, hr, hs, ho⟩)
    · exact .inr (.inr (decode_overlap hi hr hs ho))
  · exact .inr (.inl (decode_slotRange hi hr hs))

/-! ## The order of the tests -/

/-- The count field takes the top three bits. -/
theorem countField_eq (w : Word) : countField w = w.toNat / 2 ^ 29 + 1 := by
  have := w.isLt
  simp only [countField, bits]
  omega

theorem bits_op (w : Word) : bits w 3 0 = w.toNat % 2 ^ 4 := by
  simp [bits]

/-- Settles O5: each clause is one answer of the decoder, its condition the test of that answer. -/
theorem decodeTestsInFixedOrder : Obligations.DecodeTestsInFixedOrder := by
  rintro w op r0 d r1 a r2 b n hop rfl hd rfl ha rfl hb hn
  rw [← bits_op] at hop
  rw [← countField_eq] at hn
  have hd' : (slotField w 8).val = d := hd.symm
  have ha' : (slotField w 16).val = a := ha.symm
  have hb' : (slotField w 24).val = b := hb.symm
  subst hop hn
  refine ⟨decode_badOpcode, fun hin => ?_⟩
  obtain ⟨i, hi⟩ := exists_instrOf hin
  have hpos := (countField_bounds w).1
  have hr : reservedOk w = true ↔ w.toNat / 2 ^ 4 % 2 ^ 4 = 0 ∧ w.toNat / 2 ^ 13 % 2 ^ 3 = 0 ∧
      w.toNat / 2 ^ 21 % 2 ^ 3 = 0 ∧ (3 ≤ bits w 3 0 → b = 0) := by
    rw [reservedOk_iff, ← slotField_srcB, hb']
    simp only [bits] at hin ⊢
    omega
  have hs : slotRangeOk w = true ↔ d + countField w - 1 ≤ 31 ∧ a + countField w - 1 ≤ 31 ∧
      (bits w 3 0 ≤ 2 → b + countField w - 1 ≤ 31) := by
    rw [slotRangeOk_iff, hd', ha', hb']
    omega
  have ho : noPartialOverlap w = true ↔ (a = d ∨ a + countField w ≤ d ∨ d + countField w ≤ a) ∧
      (bits w 3 0 ≤ 2 → b = d ∨ b + countField w ≤ d ∨ d + countField w ≤ b) := by
    rw [noPartialOverlap_iff, Fin.ext_iff, Fin.ext_iff, hd', ha', hb']
    omega
  rw [← hr, ← hs, ← ho]
  exact ⟨decode_rsvdNonzero hi, fun h1 => ⟨decode_slotRange hi h1, fun h2 =>
    ⟨decode_overlap hi h1 h2, fun h3 => ⟨i, decode_eq_ok_iff.mpr ⟨hi, h1, h2, h3⟩⟩⟩⟩⟩

/-! ## The masks of the table -/

/-- Masking with a field of `k` bits at place `l` above a mask `m` keeps that field, and what `m` keeps
below it. -/
theorem and_field_mask (x k : Nat) {l m : Nat} (hm : m < 2 ^ l) :
    x &&& (2 ^ l * (2 ^ k - 1) + m) = 2 ^ l * (x / 2 ^ l % 2 ^ k) + (x &&& m) := by
  have hhi : (x &&& (2 ^ l * (2 ^ k - 1) + m)) / 2 ^ l = x / 2 ^ l % 2 ^ k := by
    rw [Nat.and_div_two_pow, Nat.mul_add_div (Nat.two_pow_pos l), Nat.div_eq_of_lt hm, Nat.add_zero,
      Nat.and_two_pow_sub_one_eq_mod]
  have hlo : (x &&& (2 ^ l * (2 ^ k - 1) + m)) % 2 ^ l = x &&& m := by
    rw [Nat.and_mod_two_pow, Nat.mul_add_mod, ← Nat.and_mod_two_pow,
      Nat.mod_eq_of_lt (Nat.lt_of_le_of_lt Nat.and_le_right hm)]
  rw [← hhi, ← hlo, Nat.div_add_mod]

/-- The bits that the mask of a binary command keeps. -/
theorem toNat_and_binaryMask (w : Word) : (w &&& 0x00E0E0FF).toNat
    = 2 ^ 21 * (w.toNat / 2 ^ 21 % 2 ^ 3) + (2 ^ 13 * (w.toNat / 2 ^ 13 % 2 ^ 3) + w.toNat % 2 ^ 8) := by
  rw [← Nat.and_two_pow_sub_one_eq_mod w.toNat 8, ← and_field_mask _ _ (by decide),
    ← and_field_mask _ _ (by decide)]
  rfl

/-- The bits that the mask of a unary command keeps: those of a binary one, and SRCB. -/
theorem toNat_and_unaryMask (w : Word) : (w &&& 0x1FE0E0FF).toNat
    = 2 ^ 21 * (w.toNat / 2 ^ 21 % 2 ^ 8) + (2 ^ 13 * (w.toNat / 2 ^ 13 % 2 ^ 3) + w.toNat % 2 ^ 8) := by
  rw [← Nat.and_two_pow_sub_one_eq_mod w.toNat 8, ← and_field_mask _ _ (by decide),
    ← and_field_mask _ _ (by decide)]
  rfl

/-- A word matches the row of a binary OP under its mask exactly if it has that OP and its reserved bits
are 0. -/
theorem matches_binary_iff {w : Word} {op : Nat} (hop : op = 1 ∨ op = 2) :
    w &&& 0x00E0E0FF = BitVec.ofNat 32 op ↔ bits w 3 0 = op ∧ reservedOk w = true := by
  rw [← BitVec.toNat_inj, toNat_and_binaryMask, BitVec.toNat_ofNat, reservedOk_iff]
  simp only [bits]
  omega

/-- A word matches the row of a unary OP under its mask exactly if it has that OP and its reserved bits,
SRCB among them, are 0. -/
theorem matches_unary_iff {w : Word} {op : Nat} (hop : op = 3 ∨ op = 4 ∨ op = 5) :
    w &&& 0x1FE0E0FF = BitVec.ofNat 32 op ↔ bits w 3 0 = op ∧ reservedOk w = true := by
  rw [← BitVec.toNat_inj, toNat_and_unaryMask, BitVec.toNat_ofNat, reservedOk_iff]
  simp only [bits]
  omega

/-- Settles O4: a row matches exactly if the word has its OP and reserved bits 0, so a word that matches
none has another OP or a reserved bit set. -/
theorem matchAndMaskTable : Obligations.MatchAndMaskTable := by
  intro w d a b n hd ha hb hn
  obtain rfl : d = slotField w 8 := Fin.ext hd
  obtain rfl : a = slotField w 16 := Fin.ext ha
  obtain rfl : b = slotField w 24 := Fin.ext hb
  obtain rfl : n = countField w := hn.trans (countField_eq w).symm
  have m1 : w &&& 0x00E0E0FF = 0x00000001 ↔ _ := matches_binary_iff (.inl rfl)
  have m2 : w &&& 0x00E0E0FF = 0x00000002 ↔ _ := matches_binary_iff (.inr rfl)
  have m3 : w &&& 0x1FE0E0FF = 0x00000003 ↔ _ := matches_unary_iff (.inl rfl)
  have m4 : w &&& 0x1FE0E0FF = 0x00000004 ↔ _ := matches_unary_iff (.inr (.inl rfl))
  have m5 : w &&& 0x1FE0E0FF = 0x00000005 ↔ _ := matches_unary_iff (.inr (.inr rfl))
  have row {op : Nat} {i : Instr} (hi : bits w 3 0 = op → instrOf w = some i)
      (h : bits w 3 0 = op ∧ reservedOk w = true) := decode_of_reservedOk (hi h.1) h.2
  simp only [ne_eq, m1, m2, m3, m4, m5]
  refine ⟨row fun hop => ?_, row fun hop => ?_, row fun hop => ?_, row fun hop => ?_,
    row fun hop => ?_, fun h1 h2 h3 h4 h5 => ⟨fun hout => ?_, fun hin => ?_⟩⟩
  iterate 5 simp [instrOf, hop]
  · exact decode_badOpcode (by rw [bits_op]; omega)
  · have hin' : 1 ≤ bits w 3 0 ∧ bits w 3 0 ≤ 5 := by rwa [bits_op]
    obtain ⟨i, hi⟩ := exists_instrOf hin'
    refine decode_rsvdNonzero hi fun hr => ?_
    simp only [hr, and_true] at h1 h2 h3 h4 h5
    omega

end Sys2Proof
end

section
/-! PROOFS. The words the assembler emits (30_encoding.md R91 to R93): they are valid commands, an idle
block accepts them, and which pseudo-instructions expand to them. -/

namespace Sys2Proof.Machine

/-! ## The assembler and the block -/

/-- The assembler emits the encoding of a well-formed command, and it decodes to that command. -/
theorem decode_of_assemble {i : Instr} {w : Word} (h : assemble i = some w) :
    decode w = .ok i := by
  obtain ⟨hwf, rfl⟩ : i.wf = true ∧ encode i = w := by simpa [assemble] using h
  exact decodeOfEncodeIsIdentity i hwf

/-- Settles O7: the word decodes, so the CMD write accepts it. -/
theorem assembledWordIsAccepted : Obligations.AssembledWordIsAccepted := by
  intro i w s rest ops hasm hf hs ho
  have hi := decode_of_assemble hasm
  refine ⟨_, step_writes_cmd hs ho, ?_⟩
  rw [issueCommand_accepted (s := { s with host := ops, sched := rest }) hf hi]
  exact ⟨rfl, ⟨w, rfl, hi⟩, rfl, rfl⟩

/-! ## The lines of a command -/

/-- A command is written as one CMD write, if it is well-formed. -/
theorem cmd_eq (i : Instr) : cmd i = if i.wf = true then some (wr 0x000C (encode i)) else none := by
  rw [cmd, assemble]
  split <;> rfl

/-- The line of a command writes a word that decodes to it. -/
theorem cmd_eq_some {i : Instr} {c : HostOp} (h : cmd i = some c) :
    ∃ w, c = wr 0x000C w ∧ decode w = .ok i := by
  obtain ⟨w, hw, rfl⟩ := Option.map_eq_some_iff.mp h
  exact ⟨w, rfl, decode_of_assemble hw⟩

theorem commandLines_one (i : Instr) :
    commandLines [i] = if i.wf = true then some [wr 0x000C (encode i)] else none := by
  rw [commandLines, cmd_eq]
  split <;> rfl

theorem commandLines_two (i j : Instr) :
    commandLines [i, j] =
      if i.wf = true ∧ j.wf = true then
        some [wr 0x000C (encode i), .wait, wr 0x000C (encode j)]
      else none := by
  rw [commandLines, cmd_eq, commandLines_one]
  · by_cases hi : i.wf = true <;> by_cases hj : j.wf = true <;> simp [hi, hj]
  · simp

/-- The lines of a command before others: its own, a `wait`, then theirs. -/
theorem commandLines_cons_eq_some {i j : Instr} {is : List Instr} {ops : List HostOp}
    (h : commandLines (i :: j :: is) = some ops) :
    ∃ c cs, cmd i = some c ∧ commandLines (j :: is) = some cs ∧ ops = c :: .wait :: cs := by
  rw [commandLines] at h
  · split at h
    next c cs hc hcs =>
      cases h
      exact ⟨c, cs, hc, hcs, rfl⟩
    next => cases h
  · simp

/-- Every line is a `wait` or writes a word that decodes to one of the commands. -/
theorem mem_commandLines {is : List Instr} {ops : List HostOp} (h : commandLines is = some ops) :
    ∀ o, o ∈ ops → o = .wait ∨ ∃ w i, o = wr 0x000C w ∧ decode w = .ok i ∧ i ∈ is := by
  induction is generalizing ops with
  | nil => cases h; simp
  | cons i is ih =>
    have own {c : HostOp} (hc : cmd i = some c) :
        ∃ w k, c = wr 0x000C w ∧ decode w = .ok k ∧ k ∈ i :: is := by
      obtain ⟨w, hw, hi⟩ := cmd_eq_some hc
      exact ⟨w, i, hw, hi, List.mem_cons_self⟩
    intro o ho
    cases is with
    | nil =>
      obtain ⟨c, hc, rfl⟩ := Option.map_eq_some_iff.mp h
      obtain rfl := List.mem_singleton.mp ho
      exact .inr (own hc)
    | cons j js =>
      obtain ⟨c, cs, hc, hcs, rfl⟩ := commandLines_cons_eq_some h
      rcases List.mem_cons.mp ho with rfl | ho
      · exact .inr (own hc)
      rcases List.mem_cons.mp ho with rfl | ho
      · exact .inl rfl
      · refine (ih hcs o ho).imp_right ?_
        rintro ⟨w, k, hw, hk, hmem⟩
        exact ⟨w, k, hw, hk, List.mem_cons_of_mem i hmem⟩

/-! ## The pseudo-instructions -/

/-- The count and the ranges of one source are well-formed: the ranges fit, and are equal or disjoint
(R84, R86, R88). -/
abbrev RangesOk (d a : Slot) (n : Nat) : Prop :=
  (1 ≤ n ∧ n ≤ 8 ∧ d.val + n ≤ 32 ∧ a.val + n ≤ 32) ∧
    (a = d ∨ a.val + n ≤ d.val ∨ d.val + n ≤ a.val)

theorem rangesOk_self_iff {d : Slot} {n : Nat} :
    RangesOk d d n ↔ 1 ≤ n ∧ n ≤ 8 ∧ d.val + n ≤ 32 := by
  simp [RangesOk]

/-- The destination may always be a source as well. -/
theorem RangesOk.self {d a : Slot} {n : Nat} (h : RangesOk d a n) : RangesOk d d n := by
  obtain ⟨⟨hlo, hhi, hd, -⟩, -⟩ := h
  exact rangesOk_self_iff.mpr ⟨hlo, hhi, hd⟩

/-- Where A = D is excluded, the ranges are disjoint. -/
theorem ne_and_rangesOk_iff {d a : Slot} {n : Nat} :
    a ≠ d ∧ RangesOk d a n ↔ (1 ≤ n ∧ n ≤ 8 ∧ d.val + n ≤ 32 ∧ a.val + n ≤ 32) ∧
      (a.val + n ≤ d.val ∨ d.val + n ≤ a.val) := by
  rw [RangesOk, Ne, Fin.ext_iff]
  omega

theorem wf_unary_iff_ranges {i : Instr} (h : i.srcB = none) :
    i.wf = true ↔ RangesOk i.dst i.srcA i.count := by
  simp only [wf_unary h, RangesOk, and_assoc]

theorem wf_binary_iff_ranges {i : Instr} {b : Slot} (h : i.srcB = some b) :
    i.wf = true ↔ RangesOk i.dst i.srcA i.count ∧ RangesOk i.dst b i.count := by
  rw [wf_binary h]
  constructor
  · rintro ⟨⟨hlo, hhi⟩, ⟨hd, ha, hb⟩, hoa, hob⟩
    exact ⟨⟨⟨hlo, hhi, hd, ha⟩, hoa⟩, ⟨hlo, hhi, hd, hb⟩, hob⟩
  · rintro ⟨⟨⟨hlo, hhi, hd, ha⟩, hoa⟩, ⟨-, -, -, hb⟩, hob⟩
    exact ⟨⟨hlo, hhi⟩, ⟨hd, ha, hb⟩, hoa, hob⟩

theorem wf_sub_self_iff {d : Slot} {n : Nat} :
    (Instr.sub d d d n).wf = true ↔ RangesOk d d n :=
  (wf_binary_iff_ranges rfl).trans (and_self_iff)

theorem expand_zero (d : Slot) (n : Nat) : (Pseudo.zero d n).expand =
    if RangesOk d d n then some [wr 0x000C (encode (.sub d d d n))] else none := by
  simp only [Pseudo.expand, Pseudo.condition, Pseudo.commands, commandLines_one, wf_sub_self_iff,
    if_true]

theorem expand_dbl (d a : Slot) (n : Nat) : (Pseudo.dbl d a n).expand =
    if RangesOk d a n then some [wr 0x000C (encode (.add d a a n))] else none := by
  have hwf : (Instr.add d a a n).wf = true ↔ RangesOk d a n :=
    (wf_binary_iff_ranges rfl).trans and_self_iff
  simp only [Pseudo.expand, Pseudo.condition, Pseudo.commands, commandLines_one, hwf, if_true]

theorem expand_freeze (d a : Slot) (n : Nat) : (Pseudo.freeze d a n).expand =
    if RangesOk d a n then
      some [wr 0x000C (encode (.reduce d a n)), .wait, wr 0x000C (encode (.caddq d d n))]
    else none := by
  have hwf : (Instr.reduce d a n).wf = true ∧ (Instr.caddq d d n).wf = true ↔ RangesOk d a n :=
    (and_congr (wf_unary_iff_ranges rfl) (wf_unary_iff_ranges rfl)).trans
      (and_iff_left_of_imp RangesOk.self)
  simp only [Pseudo.expand, Pseudo.condition, Pseudo.commands, commandLines_two, hwf, if_true]

/-- An expansion that begins with `zero` of the destination and excludes A = D. -/
theorem expand_of_zero_first {p : Pseudo} {d a : Slot} {n : Nat} {j : Instr}
    (hcond : p.condition = (a != d)) (hcmds : p.commands = [.sub d d d n, j])
    (hj : j.wf = true ↔ RangesOk d a n) :
    p.expand =
      if (1 ≤ n ∧ n ≤ 8 ∧ d.val + n ≤ 32 ∧ a.val + n ≤ 32) ∧
          (a.val + n ≤ d.val ∨ d.val + n ≤ a.val) then
        some [wr 0x000C (encode (.sub d d d n)), .wait, wr 0x000C (encode j)]
      else none := by
  have hwf : (Instr.sub d d d n).wf = true ∧ j.wf = true ↔ RangesOk d a n :=
    (and_congr wf_sub_self_iff hj).trans (and_iff_right_of_imp RangesOk.self)
  simp only [← ne_and_rangesOk_iff, Pseudo.expand, hcond, hcmds, commandLines_two, hwf, bne_iff_ne]
  exact (ite_and ..).symm

theorem wf_add_second_dst_iff {d a : Slot} {n : Nat} :
    (Instr.add d a d n).wf = true ↔ RangesOk d a n :=
  (wf_binary_iff_ranges rfl).trans (and_iff_left_of_imp RangesOk.self)

theorem wf_sub_first_dst_iff {d a : Slot} {n : Nat} :
    (Instr.sub d d a n).wf = true ↔ RangesOk d a n :=
  (wf_binary_iff_ranges rfl).trans (and_iff_right_of_imp RangesOk.self)

/-- Settles O8: each expansion is the lines of its commands, and exists where they are well-formed. -/
theorem expansionsAreValidCommands : Obligations.ExpansionsAreValidCommands := by
  refine ⟨fun d a n => ⟨?_, expand_dbl d a n, expand_freeze d a n,
    expand_of_zero_first rfl rfl wf_add_second_dst_iff,
    expand_of_zero_first rfl rfl wf_sub_first_dst_iff⟩, fun p ops h => ?_⟩
  · simp only [expand_zero, rangesOk_self_iff]
  · rw [Pseudo.expand] at h
    split at h
    · exact mem_commandLines h
    · cases h

/-! ## The host's `wait` -/

/-- Settles O45: the host's turn on a `wait` is `waitTurn`. -/
theorem waitPollsBusy : Obligations.WaitPollsBusy := by
  intro s rest ops hs ho
  rw [step_host hs, hostTurn, popSched_host, ho]
  cases hb : s.status.busy <;> simp [waitTurn, respond, popHost, popSched, hs, ho, hb]

/-! ## Refusals -/

theorem hostTurn_ne_refused (s : State) (r : Refusal) : hostTurn s ≠ .refused r := by
  rcases hostTurn_next_or_busError s with ⟨t, h⟩ | ⟨t, ops, -, -, h⟩ <;> simp [h]

/-- With a valid command in flight, or none, the engine's turn is not refused. -/
theorem engineTurn_ne_refused {s : State} (h : InFlightValid s) (r : Refusal) :
    engineTurn s ≠ .refused r := by
  cases hf : s.infl with
  | none => simp [engineTurn, hf]
  | some w =>
    obtain ⟨i, hi⟩ := h w hf
    simp [engineTurn, hf, hi, exec_ne_refused]

/-- Settles O50: only the engine's turn refuses, and only where the word in flight is invalid. -/
theorem legalStatesAreNeverRefused : Obligations.LegalStatesAreNeverRefused := by
  intro s r h
  rcases hs : s.sched with _ | ⟨g, rest⟩
  · rw [step_rest hs, restTurn]
    split
    · exact engineTurn_ne_refused h.inFlight r
    · exact hostTurn_ne_refused s r
  · cases g with
    | host => rw [step_host hs]; exact hostTurn_ne_refused _ r
    | engine => rw [step_engine hs]; exact engineTurn_ne_refused (inv_popSched h).inFlight r
    | reset => simp [step_reset hs]

end Sys2Proof.Machine
end

section
/-! PROOFS. What the expansions of zero, mov and neg compute (30_encoding.md R93). -/

namespace Sys2Proof.Machine

/-- add computes the wrapped sums of its sources. -/
theorem exec_add_computes (d a b : Slot) (n : Nat) (s : State) :
    ∃ t, exec (.add d a b n) s = .next t ∧
      Computes d n (fun p k => add32 (s.coeff (a.val + p) k) (s.coeff (b.val + p) k)) s t :=
  execBinary_computes add32 d a b n s

/-- sub computes the wrapped differences of its sources. -/
theorem exec_sub_computes (d a b : Slot) (n : Nat) (s : State) :
    ∃ t, exec (.sub d a b n) s = .next t ∧
      Computes d n (fun p k => sub32 (s.coeff (a.val + p) k) (s.coeff (b.val + p) k)) s t :=
  execBinary_computes sub32 d a b n s

/-- Where no result indicates an overflow, OVF is left alone. -/
theorem Computes.ovf_eq {d : Slot} {n : Nat} {g : Nat → Nat → Int × Bool} {s t : State}
    (h : Computes d n g s t) (hg : ∀ p, p < n → ∀ k, k < 256 → (g p k).2 = false) :
    t.status.ovf = s.status.ovf := by
  rw [Bool.eq_iff_iff, h.ovf, or_iff_left]
  rintro ⟨p, hp, k, hk, ho⟩
  simp [hg p hp k hk] at ho

/-! ## The primitives at 0 -/

theorem sub32_self (x : Int) : sub32 x x = (0, false) := by
  rw [sub32, Int.sub_self]
  rfl

/-- Adding 0 to an int32 gives it back. -/
theorem add32_zero {x : Int} (h : fits32 x = true) : add32 x 0 = (x, false) := by
  rw [add32, Int.add_zero, wrapped, wrap32_of_fits h, h]
  rfl

/-- Subtracting an int32 from 0 overflows at -2^31 alone, where the result wraps to the operand. -/
theorem zero_sub32 {x : Int} (h : fits32 x = true) :
    sub32 0 x = (if x = -2 ^ 31 then -2 ^ 31 else -x, decide (x = -2 ^ 31)) := by
  have hx := fits32_iff.mp h
  rw [sub32, Int.zero_sub, wrapped]
  split
  · next he => subst he; decide
  · next hne =>
    have hneg : fits32 (-x) = true := by rw [fits32_iff]; omega
    simp only [wrap32_of_fits hneg, hneg, hne, Bool.not_true, decide_false]

/-! ## The expansions -/

/-- `sub d, d, d` leaves 0 in every slot of the destination and OVF as it was. -/
theorem exec_sub_self (d : Slot) (n : Nat) (s : State) :
    ∃ t, exec (.sub d d d n) s = .next t ∧ t.status.ovf = s.status.ovf ∧
      (∀ p, p < n → ∀ k, k < 256 → t.coeff (d.val + p) k = 0) ∧ Untouched d n s t := by
  obtain ⟨t, ht, hc⟩ := exec_sub_computes d d d n s
  refine ⟨t, ht, hc.ovf_eq fun p _ k _ => by rw [sub32_self], fun p hp k hk => ?_, hc.untouched⟩
  rw [hc.result p hp k hk, sub32_self]
  rfl

/-- A slot of a range disjoint from the destination lies outside it. -/
theorem Untouched.coeff_disjoint {d a : Slot} {n : Nat} {s t : State} (h : Untouched d n s t)
    (hdis : a.val + n ≤ d.val ∨ d.val + n ≤ a.val) {p k : Nat} (hp : p < n) (hk : k < 256) :
    t.coeff (a.val + p) k = s.coeff (a.val + p) k :=
  h.coeff_eq hk (by omega)

/-- Settles O22: every coefficient is subtracted from itself. -/
theorem zeroClearsSlots : Obligations.ZeroClearsSlots := by
  intro d n s _
  obtain ⟨t, ht, hovf, hzero, -⟩ := exec_sub_self d n s
  exact ⟨t, ht, hovf, hzero⟩

/-- Settles O23: the source, kept by `zero` of the destination, is added to 0. -/
theorem movCopiesSlots : Obligations.MovCopiesSlots := by
  intro d a n s _ hdis
  obtain ⟨t, ht, hovf, hzero, hkeep⟩ := exec_sub_self d n s
  obtain ⟨u, hu, hc⟩ := exec_add_computes d a d n t
  have hsum (p : Nat) (hp : p < n) (k : Nat) (hk : k < 256) :
      add32 (t.coeff (a.val + p) k) (t.coeff (d.val + p) k) = (s.coeff (a.val + p) k, false) := by
    rw [hkeep.coeff_disjoint hdis hp hk, hzero p hp k hk, add32_zero (fits32_coeff s _ _)]
  refine ⟨t, u, ht, hu, ?_, fun p hp k hk => ⟨?_, ?_⟩⟩
  · exact (hc.ovf_eq fun p hp k hk => by rw [hsum p hp k hk]).trans hovf
  · rw [hc.result p hp k hk, hsum p hp k hk, wrap32_of_fits (fits32_coeff s _ _)]
  · rw [hc.untouched.coeff_disjoint hdis hp hk, hkeep.coeff_disjoint hdis hp hk]

/-- Settles O24: the source, kept by `zero` of the destination, is subtracted from 0. -/
theorem negNegatesSlots : Obligations.NegNegatesSlots := by
  intro d a n s _ hdis
  obtain ⟨t, ht, hovf, hzero, hkeep⟩ := exec_sub_self d n s
  obtain ⟨u, hu, hc⟩ := exec_sub_computes d d a n t
  have hdiff (p : Nat) (hp : p < n) (k : Nat) (hk : k < 256) :
      sub32 (t.coeff (d.val + p) k) (t.coeff (a.val + p) k) =
        (if s.coeff (a.val + p) k = -2 ^ 31 then -2 ^ 31 else -s.coeff (a.val + p) k,
          decide (s.coeff (a.val + p) k = -2 ^ 31)) := by
    rw [hkeep.coeff_disjoint hdis hp hk, hzero p hp k hk, zero_sub32 (fits32_coeff s _ _)]
  refine ⟨t, u, ht, hu, ?_, fun p hp k hk => ?_⟩
  · rw [hc.ovf, hovf]
    refine or_congr_right (exists_congr fun p => and_congr_right fun hp => exists_congr fun k =>
      and_congr_right fun hk => ?_)
    rw [hdiff p hp k hk, decide_eq_true_eq]
  · have hfits : fits32 (sub32 (t.coeff (d.val + p) k) (t.coeff (a.val + p) k)).1 = true :=
      fits32_wrap32 _
    rw [hc.result p hp k hk, wrap32_of_fits hfits, hdiff p hp k hk]

end Sys2Proof.Machine
end

section
/-! PROOFS. The scalar primitives (40_poly_arith.md R110 to R116, R126, R127): residues, ranges and
overflow. -/

namespace Sys2Proof.Machine

/-! ## Central reduce -/

/-- `fits32` as the bounds a statement writes. -/
theorem fits32_iff_pow {x : Int} : fits32 x = true ↔ -2 ^ 31 ≤ x ∧ x ≤ 2 ^ 31 - 1 :=
  fits32_iff

/-- Central reduce subtracts a multiple of Q. -/
theorem reduce32_emod (a : Int) : reduce32 a % 8380417 = a % 8380417 := by
  obtain ⟨t, -, hr, -, -⟩ := reduce32_spec a
  omega

/-- The range of central reduce (R111). With t the quotient and r the remainder of a + 2^22 by 2^23, the
result is 8191 t + r - 2^22, and r is below 2^22 where t has its largest value 256. -/
theorem reduce32_bounds {a : Int} (h : fits32 a = true) :
    -6283009 ≤ reduce32 a ∧ reduce32 a ≤ 6283008 := by
  obtain ⟨t, -, hr, hlo, hhi⟩ := reduce32_spec a
  rw [fits32_iff] at h
  obtain ht | rfl : t ≤ 255 ∨ t = 256 := by omega
  all_goals omega

/-- Settles O9: the result differs from a by a multiple of Q, and its range follows from the quotient. -/
theorem centralReduceRangeAndResidue : Obligations.CentralReduceRangeAndResidue := by
  refine ⟨fun a hlo hhi => ?_, by decide, by decide⟩
  exact ⟨reduce32_emod a, reduce32_bounds (fits32_iff_pow.mpr ⟨hlo, hhi⟩)⟩

/-! ## Conditional addition of Q -/

theorem caddq_of_neg {a : Int} (h : a < 0) : caddq a = a + 8380417 := if_pos h

theorem caddq_of_nonneg {a : Int} (h : 0 ≤ a) : caddq a = a := if_neg (Int.not_lt.mpr h)

theorem caddq_emod (a : Int) : caddq a % 8380417 = a % 8380417 := by
  rcases Int.lt_or_le a 0 with h | h
  · rw [caddq_of_neg h, Int.add_emod_right]
  · rw [caddq_of_nonneg h]

/-- The domain in which caddq gives the canonical representative (R114). -/
theorem caddq_bounds {a : Int} (hlo : -8380417 ≤ a) (hhi : a ≤ 8380416) :
    0 ≤ caddq a ∧ caddq a ≤ 8380416 := by
  rcases Int.lt_or_le a 0 with h | h
  · rw [caddq_of_neg h]; omega
  · rw [caddq_of_nonneg h]; omega

/-- Settles O11: the two cases of the formula. -/
theorem caddqRangeAndResidue : Obligations.CaddqRangeAndResidue := by
  intro a hlo _
  refine ⟨fun h => ?_, caddq_of_nonneg, caddq_emod a, caddq_bounds, fun h => ?_, fun h => ?_⟩
  · rw [caddq_of_neg h]; omega
  · exact caddq_of_nonneg (by omega)
  · rw [caddq_of_neg (by omega)]; omega

/-- Freeze: central reduce meets the domain of caddq, which then gives the canonical representative of the
residue that both keep (R124). -/
theorem caddq_reduce32 {x : Int} (h : fits32 x = true) : caddq (reduce32 x) = x % 8380417 := by
  obtain ⟨hlo, hhi⟩ := reduce32_bounds h
  obtain ⟨hnonneg, hlt⟩ := caddq_bounds (a := reduce32 x) (by omega) (by omega)
  rw [← reduce32_emod x, ← caddq_emod (reduce32 x), Int.emod_eq_of_lt hnonneg (by omega)]

/-! ## Wrapping and the overflow indication -/

theorem wrapped_of_fits {x : Int} (h : fits32 x = true) : wrapped x = (x, false) := by
  rw [wrapped, wrap32_of_fits h, h]
  rfl

theorem wrapped_exact_iff {x : Int} : (wrapped x).2 = false ↔ -2 ^ 31 ≤ x ∧ x ≤ 2 ^ 31 - 1 := by
  rw [wrapped_snd, Bool.not_eq_false', fits32_iff_pow]

theorem wrapped_ovf_iff {x : Int} : (wrapped x).2 = true ↔ ¬ (-2 ^ 31 ≤ x ∧ x ≤ 2 ^ 31 - 1) := by
  rw [← wrapped_exact_iff, Bool.not_eq_false]

theorem wrapped_eq_of_exact {x : Int} (h : (wrapped x).2 = false) : (wrapped x).1 = x :=
  wrap32_of_fits (fits32_iff_pow.mpr (wrapped_exact_iff.mp h))

/-- The product by 2^13 is an int32 exactly for the int32 of 19 bits (R116). -/
theorem mul_8192_bounds_iff {x : Int} :
    (-2 ^ 31 ≤ x * 8192 ∧ x * 8192 ≤ 2 ^ 31 - 1) ↔ -262144 ≤ x ∧ x ≤ 262143 := by
  omega

/-- Settles O12: each primitive wraps its exact result. -/
theorem overflowDomains : Obligations.OverflowDomains := by
  intro x y _ _ _ _
  refine ⟨wrapped_exact_iff, wrapped_exact_iff, wrapped_exact_iff.trans mul_8192_bounds_iff,
    wrapped_eq_of_exact, wrapped_eq_of_exact, wrapped_eq_of_exact,
    wrap32_emod _, wrap32_emod _, wrap32_emod _, ?_⟩
  rintro r (rfl | rfl | rfl) <;> exact fits32_iff_pow.mp (fits32_wrap32 _)

/-! ## Wrapping and the residue mod Q -/

/-- Wrapping a value that leaves int32 takes it off by a nonzero multiple of 2^32. -/
theorem wrap32_of_not_fits {x : Int} (h : fits32 x ≠ true) :
    ∃ m : Int, m ≠ 0 ∧ wrap32 x = x + m * 2 ^ 32 := by
  have hm : wrap32 x = x + -((x + 2 ^ 31) / 2 ^ 32) * 2 ^ 32 := by rw [wrap32]; omega
  refine ⟨_, fun hzero => h (wrap32_eq_iff.mp ?_), hm⟩
  rw [hm, hzero, Int.zero_mul, Int.add_zero]

/-- Q is odd, so it divides m 2^32 only where it divides m, which between -Q and Q is at 0. -/
theorem eq_zero_of_dvd_mul_two_pow {m : Int} (hlo : -8380417 < m) (hhi : m < 8380417)
    (h : (8380417 : Int) ∣ m * 2 ^ 32) : m = 0 :=
  have hdvd : (8380417 : Int) ∣ m := Int.dvd_of_dvd_mul_left_of_gcd_one h (by decide)
  Int.eq_zero_of_abs_lt_dvd hdvd (abs_lt.mpr ⟨hlo, hhi⟩)

/-- Where a value that leaves int32 is wrapped, its residue mod Q changes (R126). The bound 2^44 covers
every exact sum, difference and product of the block. -/
theorem wrap32_emod_ne {x : Int} (hfit : fits32 x ≠ true) (hlo : -2 ^ 44 ≤ x) (hhi : x ≤ 2 ^ 44) :
    wrap32 x % 8380417 ≠ x % 8380417 := by
  obtain ⟨m, hne, hm⟩ := wrap32_of_not_fits hfit
  obtain ⟨hwlo, hwhi⟩ := fits32_iff.mp (fits32_wrap32 x)
  intro heq
  have hdvd : (8380417 : Int) ∣ m * 2 ^ 32 := by
    have h : (8380417 : Int) ∣ wrap32 x - x := Int.ModEq.dvd heq.symm
    rwa [hm, add_sub_cancel_left] at h
  exact hne (eq_zero_of_dvd_mul_two_pow (by omega) (by omega) hdvd)

/-- Settles O10: in the last band t is 256, and a 32-bit adder, which makes it -256, leaves int32 once
more, so that its residue is another. -/
theorem centralReduceSubRanges : Obligations.CentralReduceSubRanges := by
  refine ⟨fun a hlo hhi => ?_, fun a hlo hhi => ?_, by decide, by decide⟩
  · have ht : (a + 2 ^ 22) / 2 ^ 23 = 0 := by omega
    exact ⟨ht, by rw [reduce32, ht, Int.zero_mul, Int.sub_zero]⟩
  · have ht : (a + 2 ^ 22) / 2 ^ 23 = 256 := by omega
    have hr : reduce32 a = a - 2145386752 := by rw [reduce32, ht]; rfl
    have hwrap : wrap32 (a + 2 ^ 22) / 2 ^ 23 = -256 := by rw [wrap32]; omega
    have hne : wrap32 (a - -256 * 8380417) % 8380417 ≠ a % 8380417 := by
      have h := wrap32_emod_ne (x := a - -256 * 8380417) (by rw [ne_eq, fits32_iff]; omega)
        (by omega) (by omega)
      rwa [Int.sub_mul_emod_self_right] at h
    rw [hwrap]
    refine ⟨ht, hr, by omega, by omega, fun heq => hne ?_, hne⟩
    rw [heq, reduce32_emod]

theorem add32_comm (x y : Int) : add32 x y = add32 y x :=
  congrArg wrapped (Int.add_comm x y)

/-- Settles O13: each of the three results is the wrapped exact one, which is below 2^44 in size. -/
theorem congruenceModQ : Obligations.CongruenceModQ := by
  refine ⟨by decide, fun x y => ⟨add32_comm x y, sub32_self x⟩,
    fun a => ⟨reduce32_emod a, caddq_emod a⟩, fun x y hx hx' hy hy' e r hop => ?_⟩
  obtain ⟨rfl, hlo, hhi⟩ : r = wrapped e ∧ -2 ^ 44 ≤ e ∧ e ≤ 2 ^ 44 := by
    rcases hop with ⟨rfl, rfl⟩ | ⟨rfl, rfl⟩ | ⟨rfl, rfl⟩ <;> exact ⟨rfl, by omega, by omega⟩
  refine ⟨fun hexact => by rw [wrapped_eq_of_exact hexact], fun hovf => ?_⟩
  have hfit : fits32 e ≠ true := by simpa using hovf
  exact ⟨wrap32_of_not_fits hfit, wrap32_emod_ne hfit hlo hhi⟩

end Sys2Proof.Machine
end

section
/-! PROOFS. What the commands compute (40_poly_arith.md R117 to R127): the results and OVF of each, read off
`Computes`. -/

namespace Sys2Proof.Machine

/-! ## From the primitive to the command -/

/-- The results of a primitive that wraps its exact value `e`. -/
theorem Computes.wraps {d : Slot} {n : Nat} {e : Nat → Nat → Int} {s t : State}
    (h : Computes d n (fun p k => wrapped (e p k)) s t) :
    (∀ p, p < n → ∀ k, k < 256 → t.coeff (d.val + p) k = wrap32 (e p k)) ∧
    (t.status.ovf = true ↔ s.status.ovf = true ∨
      ∃ p, p < n ∧ ∃ k, k < 256 ∧ ¬ (-2 ^ 31 ≤ e p k ∧ e p k ≤ 2 ^ 31 - 1)) := by
  refine ⟨fun p hp k hk => ?_, ?_⟩
  · rw [h.result p hp k hk, wrapped_fst, wrap32_wrap32]
  · simp only [h.ovf, wrapped_ovf_iff]

/-- The results of a primitive where it gives the int32 `v` without an overflow. -/
theorem Computes.exact {d : Slot} {n : Nat} {g : Nat → Nat → Int × Bool} {v : Nat → Nat → Int}
    {s t : State} (h : Computes d n g s t)
    (hg : ∀ p, p < n → ∀ k, k < 256 → g p k = (v p k, false) ∧ fits32 (v p k) = true) :
    t.status.ovf = s.status.ovf ∧
      ∀ p, p < n → ∀ k, k < 256 → t.coeff (d.val + p) k = v p k := by
  refine ⟨h.ovf_eq fun p hp k hk => by rw [(hg p hp k hk).1], fun p hp k hk => ?_⟩
  obtain ⟨hv, hfit⟩ := hg p hp k hk
  rw [h.result p hp k hk, hv, wrap32_of_fits hfit]

/-- Where every exact value is an int32, a wrapping primitive gives it. -/
theorem Computes.wraps_exact {d : Slot} {n : Nat} {e : Nat → Nat → Int} {s t : State}
    (h : Computes d n (fun p k => wrapped (e p k)) s t)
    (hfit : ∀ p, p < n → ∀ k, k < 256 → fits32 (e p k) = true) :
    t.status.ovf = s.status.ovf ∧
      ∀ p, p < n → ∀ k, k < 256 → t.coeff (d.val + p) k = e p k :=
  h.exact fun p hp k hk => ⟨wrapped_of_fits (hfit p hp k hk), hfit p hp k hk⟩

/-- A unary command whose primitive keeps int32 and never indicates an overflow. -/
theorem execUnary_noOvf_result {f : Int → Int} (hf : ∀ x, fits32 x = true → fits32 (f x) = true)
    (d a : Slot) (n : Nat) (s : State) :
    ∃ t, execUnary (noOvf f) d a n s = .next t ∧ t.status.ovf = s.status.ovf ∧
      ∀ p, p < n → ∀ k, k < 256 → t.coeff (d.val + p) k = f (s.coeff (a.val + p) k) := by
  obtain ⟨t, ht, hc⟩ := execUnary_computes (noOvf f) d a n s
  exact ⟨t, ht, hc.exact fun p _ k _ => ⟨rfl, hf _ (fits32_coeff s _ _)⟩⟩

/-! ## The commands -/

/-- shiftl computes the wrapped products by 2^13. -/
theorem exec_shiftl_computes (d a : Slot) (n : Nat) (s : State) :
    ∃ t, exec (.shiftl d a n) s = .next t ∧
      Computes d n (fun p k => wrapped (s.coeff (a.val + p) k * 8192)) s t :=
  execUnary_computes shl13 d a n s

/-- reduce gives the central reduce of each coefficient and leaves OVF alone. -/
theorem exec_reduce_result (d a : Slot) (n : Nat) (s : State) :
    ∃ t, exec (.reduce d a n) s = .next t ∧ t.status.ovf = s.status.ovf ∧
      ∀ p, p < n → ∀ k, k < 256 → t.coeff (d.val + p) k = reduce32 (s.coeff (a.val + p) k) :=
  execUnary_noOvf_result (fun _ => fits32_reduce32) d a n s

/-- caddq adds Q to the negative coefficients and leaves OVF alone. -/
theorem exec_caddq_result (d a : Slot) (n : Nat) (s : State) :
    ∃ t, exec (.caddq d a n) s = .next t ∧ t.status.ovf = s.status.ovf ∧
      ∀ p, p < n → ∀ k, k < 256 → t.coeff (d.val + p) k = caddq (s.coeff (a.val + p) k) :=
  execUnary_noOvf_result (fun _ => fits32_caddq) d a n s

/-- Settles O14: add wraps the exact sums. -/
theorem addCompletes : Obligations.AddCompletes := by
  intro d a b n s
  obtain ⟨t, ht, hc⟩ := exec_add_computes d a b n s
  exact ⟨t, ht, hc.wraps⟩

/-- Settles O15: sub wraps the exact differences. -/
theorem subCompletes : Obligations.SubCompletes := by
  intro d a b n s
  obtain ⟨t, ht, hc⟩ := exec_sub_computes d a b n s
  exact ⟨t, ht, hc.wraps⟩

/-- Settles O16: residue and range are those of `reduce32` on an int32. -/
theorem reduceCompletes : Obligations.ReduceCompletes := by
  intro d a n s
  obtain ⟨t, ht, hovf, hres⟩ := exec_reduce_result d a n s
  refine ⟨t, ht, hovf, fun p hp k hk => ?_⟩
  rw [hres p hp k hk]
  exact ⟨rfl, reduce32_emod _, reduce32_bounds (fits32_coeff s _ _)⟩

/-- Settles O17: the formula is that of `caddq`. -/
theorem caddqCompletes : Obligations.CaddqCompletes :=
  exec_caddq_result

/-- Settles O18: shiftl wraps the exact products, which leave int32 where the coefficient leaves 19
bits. -/
theorem shiftlCompletes : Obligations.ShiftlCompletes := by
  intro d a n s
  obtain ⟨t, ht, hc⟩ := exec_shiftl_computes d a n s
  obtain ⟨hres, hovf⟩ := hc.wraps
  refine ⟨t, ht, hres, ?_⟩
  simpa only [mul_8192_bounds_iff] using hovf

/-- Settles O21: caddq of the central reduce is the canonical residue, coefficient by coefficient. -/
theorem freezeYieldsCanonicalResidues : Obligations.FreezeYieldsCanonicalResidues := by
  refine ⟨fun x hlo hhi => ⟨caddq_reduce32 (fits32_iff_pow.mpr ⟨hlo, hhi⟩), by omega, by omega⟩,
    fun d a n s => ?_⟩
  obtain ⟨t, ht, htovf, htres⟩ := exec_reduce_result d a n s
  obtain ⟨u, hu, huovf, hures⟩ := exec_caddq_result d d n t
  refine ⟨t, u, ht, hu, huovf.trans htovf, fun p hp k hk => ?_⟩
  rw [hures p hp k hk, htres p hp k hk, caddq_reduce32 (fits32_coeff s _ _)]

/-- Settles O25: in its domain each exact result is an int32, and caddq gives the canonical residue. -/
theorem outputBoundsInDomain : Obligations.OutputBoundsInDomain := by
  intro d a b n s
  refine ⟨fun hdom => ?_, fun hdom => ?_, fun hdom => ?_, fun hdom => ?_⟩
  · obtain ⟨t, ht, hc⟩ := exec_add_computes d a b n s
    exact ⟨t, ht, hc.wraps_exact hdom⟩
  · obtain ⟨t, ht, hc⟩ := exec_sub_computes d a b n s
    exact ⟨t, ht, hc.wraps_exact hdom⟩
  · obtain ⟨t, ht, hc⟩ := exec_shiftl_computes d a n s
    refine ⟨t, ht, hc.wraps_exact fun p hp k hk => ?_⟩
    have hx := hdom p hp k hk
    simp only [InDomain, Bool.and_eq_true, decide_eq_true_eq] at hx
    rw [fits32_iff]
    omega
  · obtain ⟨t, ht, hovf, hres⟩ := exec_caddq_result d a n s
    refine ⟨t, ht, hovf, fun p hp k hk => ?_⟩
    have hx := hdom p hp k hk
    simp only [InDomain, Bool.and_eq_true, decide_eq_true_eq] at hx
    obtain ⟨hlo, hhi⟩ := hx
    obtain ⟨hnonneg, hle⟩ := caddq_bounds hlo hhi
    rw [hres p hp k hk]
    exact ⟨hnonneg, hle, caddq_emod _⟩

/-- Settles O26: the two snapshots are added coefficient by coefficient. -/
theorem addSourcesCommute : Obligations.AddSourcesCommute := by
  intro d a b n s
  show execBinary add32 d a b n s = execBinary add32 d b a n s
  rw [execBinary, execBinary, List.zipWith_comm_of_comm add32_comm]

end Sys2Proof.Machine
end

section
/-! PROOFS. The engine's steps (60_exceptions.md R166, 40_poly_arith.md R117) and the independence of
control from coefficients (40_poly_arith.md R128): a step leaves the same control state when every
coefficient, OVF and the last response are wiped before it. -/

namespace Sys2Proof.Machine

/-! ## The engine's steps -/

theorem popSched_cons {s : State} {g : Agent} {rest : List Agent} (h : s.sched = g :: rest) :
    popSched s = { s with sched := rest } := by
  rw [popSched, h, List.tail_cons]

/-- Settles O27: with no turn laid down, a command in flight gives the turn to the engine. -/
theorem stepRunsTheDecodedCommand : Obligations.StepRunsTheDecodedCommand := by
  intro s w i hw hi
  refine ⟨fun rest hs => ?_, fun hs => ?_⟩
  · rw [step_completes hs hw hi, popSched_cons hs]
  · simp only [step_rest hs, restTurn, engineTurn, hw, hi, Option.isSome_some, if_true]

/-- Settles O28: `exec` has a next state whatever the sources hold, and `retire` ends the completion. -/
theorem completionAlwaysSucceeds : Obligations.CompletionAlwaysSucceeds := by
  rintro s i rest ⟨w, hw, hi⟩ hs
  obtain ⟨rs, -, hu⟩ := exec_eq_commit i { s with sched := rest }
  refine ⟨_, hu, ?_⟩
  rw [step_completes hs hw hi, popSched_cons hs, hu]
  rfl

/-! ## The control state -/

/-- The control state: `s` with its coefficients, written and free, OVF and last response wiped. -/
def controlOf (s : State) : State :=
  { s with P := [], epoch := 0, status := { s.status with ovf := false }, resp := none }

/-- States with one control state agree on INFL, on STATUS but for OVF, on the other registers, and on the
host's items and the turns. -/
theorem fields_of_controlOf_eq {s t : State} (h : controlOf t = controlOf s) :
    t.infl = s.infl ∧ t.status.busy = s.status.busy ∧ t.status.done = s.status.done ∧
      t.status.err = s.status.err ∧ t.status.errcode = s.status.errcode ∧ t.ie = s.ie ∧
      t.errinfo = s.errinfo ∧ t.host = s.host ∧ t.sched = s.sched := by
  simp only [controlOf, State.mk.injEq, Status.mk.injEq, true_and, and_true] at h
  obtain ⟨hinfl, ⟨hbusy, hdone, herr, herrcode⟩, hie, herrinfo, hhost, hsched⟩ := h
  exact ⟨hinfl, hbusy, hdone, herr, herrcode, hie, herrinfo, hhost, hsched⟩

theorem controlOf_commitVec (d : Slot) (rs : List (Int × Bool)) (s : State) :
    controlOf (commitVec d rs s) = controlOf s := by
  unfold commitVec flagOvf
  split <;> rfl

theorem raiseCmdError_controlOf (c : CmdError) (w : Word) (s : State) :
    raiseCmdError c w (controlOf s) = controlOf (raiseCmdError c w s) := by
  cases herr : s.status.err <;> cases c <;> simp [raiseCmdError, controlOf, herr]

/-- Whether a command is accepted is decided by INFL and its word alone (60_exceptions.md R164). -/
theorem issueCommand_controlOf (w : Word) (s : State) :
    issueCommand w (controlOf s) = controlOf (issueCommand w s) := by
  rcases issueCommand_cases w s with ⟨v, hn, heq⟩ | ⟨c, hn, hc, heq⟩ | ⟨i, hn, hi, heq⟩ <;> rw [heq]
  · rw [issueCommand_inFlight (s := controlOf s) hn, raiseCmdError_controlOf]
  · rw [issueCommand_rejected (s := controlOf s) hn hc, raiseCmdError_controlOf]
  · exact issueCommand_accepted (s := controlOf s) hn hi

theorem ctrlWrite_controlOf (v : Word) (s : State) :
    ctrlWrite v (controlOf s) = controlOf (ctrlWrite v s) := by
  unfold ctrlWrite
  split <;> rfl

/-! ## The turns -/

/-- The operation leaves the same control state, or stops alike, when its state is wiped before it. -/
abbrev ControlOnly (f : State → Host.Outcome State Fault Refusal) : Prop :=
  ∀ s, mapNext controlOf (f (controlOf s)) = mapNext controlOf (f s)

theorem memRead_controlOnly (a : Addr) : ControlOnly (memRead a) := by
  intro s
  unfold memRead
  cases region a <;> rfl

theorem memWrite_controlOnly (a : Addr) (w : Word) : ControlOnly (memWrite a w) := by
  intro s
  unfold memWrite
  cases region a with
  | ctrl => rw [ctrlWrite_controlOf]; rfl
  | cmd => rw [issueCommand_controlOf]; rfl
  | constq | status | errinfo | info | window | unmapped => rfl

theorem perform_controlOnly (t : Txn) : ControlOnly (perform t) := by
  intro s
  unfold perform
  cases t.ok with
  | false => rfl
  | true =>
    cases t.op with
    | read => exact memRead_controlOnly t.addr s
    | write w => exact memWrite_controlOnly t.addr w s

theorem hostTurn_controlOnly : ControlOnly hostTurn := by
  intro s
  rcases ho : s.host with _ | ⟨t | _, ops⟩
  · simp only [hostTurn, ho, show (controlOf s).host = [] from ho]
    rfl
  · rw [hostTurn_txn ho, hostTurn_txn (s := controlOf s) ho,
      show held t (controlOf s) = held t s from rfl]
    cases held t s with
    | true => rfl
    | false => exact perform_controlOnly t (popHost s)
  · simp only [hostTurn, ho, show (controlOf s).host = .wait :: ops from ho]
    cases hb : s.status.busy <;> simp [mapNext, waitTurn, controlOf, respond, popHost, hb]

/-- A completion leaves the same control state whatever the command computes. -/
theorem mapNext_retire_exec (i : Instr) (s : State) :
    mapNext controlOf (mapNext retire (exec i s)) = .next (retire (controlOf s)) := by
  obtain ⟨rs, -, hu⟩ := exec_eq_commit i s
  rw [hu, ← controlOf_commitVec i.dst rs s]
  rfl

theorem engineTurn_controlOnly : ControlOnly engineTurn := by
  intro s
  cases hf : s.infl with
  | none =>
    simp only [engineTurn, hf, show (controlOf s).infl = none from hf]
    rfl
  | some w =>
    simp only [engineTurn, hf, show (controlOf s).infl = some w from hf]
    cases decode w with
    | error c => rfl
    | ok i =>
      dsimp only
      rw [mapNext_retire_exec, mapNext_retire_exec]
      rfl

theorem step_controlOnly : ControlOnly step := by
  intro s
  rcases hs : s.sched with _ | ⟨g, rest⟩
  · rw [step_rest hs, step_rest (s := controlOf s) hs, restTurn, restTurn,
      show (controlOf s).infl = s.infl from rfl]
    split
    · exact engineTurn_controlOnly s
    · exact hostTurn_controlOnly s
  · cases g with
    | host =>
      rw [step_host hs, step_host (s := controlOf s) hs]
      exact hostTurn_controlOnly (popSched s)
    | engine =>
      rw [step_engine hs, step_engine (s := controlOf s) hs]
      exact engineTurn_controlOnly (popSched s)
    | reset =>
      rw [step_reset hs, step_reset (s := controlOf s) hs]
      rfl

/-- From two states with one control state, a step leaves one control state or stops alike. -/
theorem step_of_controlOf_eq {s s' : State} (h : controlOf s' = controlOf s) :
    mapNext controlOf (step s') = mapNext controlOf (step s) := by
  rw [← step_controlOnly s', h, step_controlOnly s]

/-- Settles O30: both states have one control state, so their next states have. -/
theorem controlIndependentOfCoefficients : Obligations.ControlIndependentOfCoefficients := by
  intro s t m e o r hstep
  have heq := step_of_controlOf_eq (s := s)
    (s' := { s with P := m, epoch := e, status := { s.status with ovf := o }, resp := r }) rfl
  rw [hstep] at heq
  obtain ⟨t', ht', hc⟩ := mapNext_eq_next.mp heq
  exact ⟨t', ht', fields_of_controlOf_eq hc⟩

end Sys2Proof.Machine
end

section
/-! PROOFS. The issue, rejection and completion of a command as its registers see them, the interrupt
output, and the races of a host write with a completion (60_exceptions.md R163, R165 to R168). -/

namespace Sys2Proof.Machine

/-! ## Rejection -/

/-- A rejection field by field: the first error is kept, and DONE is set unless the error is CMD_BUSY. -/
theorem raiseCmdError_eq (e : CmdError) (w : Word) (s : State) :
    raiseCmdError e w s = { s with
      status := { s.status with
        done := if e = .cmdBusy then s.status.done else true
        err := true
        errcode := if s.status.err = true then s.status.errcode else e.code }
      errinfo := if s.status.err = true then s.errinfo else w } := by
  obtain ⟨P, infl, ⟨busy, done, err, ovf, errcode⟩, ie, errinfo, host, sched, resp, epoch⟩ := s
  by_cases he : e = .cmdBusy
  · cases err <;> simp [raiseCmdError, he]
  · cases err <;> simp [raiseCmdError, he]

/-- Settles O31: the CMD write of a valid command is `accept`. -/
theorem acceptanceOfACommand : Obligations.AcceptanceOfACommand := by
  intro s w i rest ops hf hi hs ho
  rw [step_writes_cmd hs ho,
    issueCommand_accepted (s := { s with host := ops, sched := rest }) hf hi]
  rfl

/-- Settles O32: the CMD write is `raiseCmdError`, with the decoder's error in an idle block and with
CMD_BUSY in a busy one; the decoder never answers CMD_BUSY. -/
theorem rejectionOfACommand : Obligations.RejectionOfACommand := by
  intro s w rest ops hs ho
  refine ⟨fun e code hmem hf he => ?_, decode_ne_cmdBusy w, fun hf => ?_⟩
  · have hcode : e.code = code ∧ e ≠ .cmdBusy := by
      simp only [List.mem_cons, Prod.mk.injEq, List.not_mem_nil, or_false] at hmem
      rcases hmem with ⟨rfl, rfl⟩ | ⟨rfl, rfl⟩ | ⟨rfl, rfl⟩ | ⟨rfl, rfl⟩ <;> decide
    obtain ⟨rfl, hne⟩ := hcode
    rw [step_writes_cmd hs ho,
      issueCommand_rejected (s := { s with host := ops, sched := rest }) hf he, raiseCmdError_eq,
      if_neg hne]
    rfl
  · obtain ⟨v, hv⟩ := Option.ne_none_iff_exists'.mp hf
    rw [step_writes_cmd hs ho,
      issueCommand_inFlight (s := { s with host := ops, sched := rest }) hv, raiseCmdError_eq,
      if_pos rfl]
    rfl

/-! ## Completion -/

/-- The engine's turn retires the command in flight; before that only the destination and OVF differ. -/
theorem step_engine_retires {s : State} {i : Instr} {rest : List Agent}
    (hs : s.sched = .engine :: rest) (hf : InFlight i s) :
    ∃ u, step s = .next (retire u) ∧ Untouched i.dst i.count { s with sched := rest } u := by
  obtain ⟨u, hu, hstep⟩ := completionAlwaysSucceeds s i rest hf hs
  exact ⟨u, hstep, exec_untouched hu⟩

/-- Settles O34: a completion leaves IE alone and sets DONE, and CLR clears DONE and ERR. -/
theorem interruptLevel : Obligations.InterruptLevel := by
  refine ⟨fun s => by simp [State.irq], fun s t i rest hf hs hstep => ?_,
    fun s t v rest ops hs ho hclr hstep => ?_⟩
  · obtain ⟨u, hu, huntouched⟩ := step_engine_retires hs hf
    obtain rfl : retire u = t := by simpa [hu] using hstep
    simp [State.irq, huntouched.ie]
  · rw [step_writes_ctrl hs ho, ctrlWrite_of_clr hclr] at hstep
    cases hstep
    exact Bool.and_false _

/-! ## Races with the completion (R167) -/

/-- A run of two steps. -/
theorem run_two {s t u : State} (hst : step s = .next t) (htu : step t = .next u) :
    Host.Core.run Sys2Proof.core 2 s = .next u :=
  (run_succ hst).trans (run_succ htu)

/-- A step that leaves a command in flight, with the engine next, and then its completion. -/
theorem run_then_retires {s t : State} {i : Instr} {rest : List Agent} (hst : step s = .next t)
    (hs : t.sched = .engine :: rest) (hf : InFlight i t) :
    ∃ u, Host.Core.run Sys2Proof.core 2 s = .next (retire u) ∧
      Untouched i.dst i.count { t with sched := rest } u := by
  obtain ⟨u, hdone, huntouched⟩ := step_engine_retires hs hf
  exact ⟨u, run_two hst hdone, huntouched⟩

/-- Settles O57: the completion sets DONE and CLR clears it, so the second of the two decides. -/
theorem clearRacesCompletion : Obligations.ClearRacesCompletion := by
  intro s i v rest ops hf hclr ho
  refine ⟨fun hs => ?_, fun hs => ?_⟩
  · have hclear := step_writes_ctrl hs ho
    rw [ctrlWrite_of_clr hclr] at hclear
    obtain ⟨u, hrun, -⟩ := run_then_retires hclear rfl hf
    exact ⟨retire u, hrun, rfl, rfl⟩
  · obtain ⟨u, hdone, huntouched⟩ := step_engine_retires hs hf
    have hclear := step_writes_ctrl (s := retire u) huntouched.sched (huntouched.host.trans ho)
    rw [ctrlWrite_of_clr hclr] at hclear
    exact ⟨_, run_two hdone hclear, rfl, rfl⟩

/-- Settles O58: a busy block drops the word and the completion keeps the recorded error; the block that
the completion leaves idle accepts the word, with ERR as before. -/
theorem secondCommandRacesCompletion : Obligations.SecondCommandRacesCompletion := by
  rintro s i j v rest ops ⟨w, hw, hi⟩ hj herr ho
  refine ⟨fun hs => ?_, fun hs => ?_⟩
  · obtain ⟨-, -, hbusy⟩ := rejectionOfACommand s v _ ops hs ho
    have hdrop := hbusy (by simp [hw])
    simp only [herr, Bool.false_eq_true, if_false] at hdrop
    obtain ⟨u, hrun, huntouched⟩ := run_then_retires hdrop rfl ⟨w, hw, hi⟩
    refine ⟨retire u, hrun, rfl, ?_, ?_, huntouched.errinfo, rfl⟩ <;>
      rw [retire_status, huntouched.status]
  · obtain ⟨u, hdone, huntouched⟩ := step_engine_retires hs ⟨w, hw, hi⟩
    have haccept := acceptanceOfACommand (retire u) v j rest ops rfl hj huntouched.sched
      (huntouched.host.trans ho)
    refine ⟨_, run_two hdone haccept, rfl, ?_, rfl, rfl⟩
    rw [retire_status, huntouched.status]
    exact herr

end Sys2Proof.Machine
end
